-- ==== Sys2Proof/Word.lean ====
section
/-! DEFINITION. The word types of the encryptor CORE: every value is an unsigned bit vector whose bit 0 is the least
significant (R10, R11, R32). -/

namespace Sys2Proof

/-- An "8-bit unsigned value; all operations are modulo-256, no signedness" (R10): data bytes, keys, results. -/
abbrev Byte := BitVec 8

/-- A seed, four significant bits wide (R9, SEED_W). -/
abbrev Seed := BitVec 4

/-- A command word, 32 bits (R43). -/
abbrev CmdWord := BitVec 32

/-- A response word, 12 bits (R44). -/
abbrev RspWord := BitVec 12

/-- The chain-step counter, 32 bits (R22). -/
abbrev Counter := BitVec 32

/-- A bit position, a rotation amount or an index of a loop over the bits of a byte: always in 0..7 (R54, R59). -/
abbrev BitPos := Fin 8

end Sys2Proof
end

