-- ==== Sys2Proof/Config.lean ====
section
/-! DEFINITION. The parameters of the CORE (R9): the one constant the document fixes, and the two parameters the spec
leaves OPEN. -/

namespace Sys2Proof

/-- The initialization constant IV, a wired constant that no command writes: 0b11001011 = 203 = 0xCB (R21). -/
def Config.iv : Byte := 0xCB#8

/-- One less than LAT: no rule says more of LAT than that it is at least 1. No body: nothing can be proved of its value. -/
opaque Config.latencyPred : Nat

/-- LAT, the cycles from a command's acceptance to its response: OPEN, an integer at least 1 (R9, R119). No rule depends
on it and nothing in the model reads it. DESIGN CHOICE (log 5), safe. -/
def Config.latency : Nat := Config.latencyPred + 1

/-- What RESET_FORM decides: whether reset is synchronous, its active level, and its minimum duration (R113). -/
structure ResetForm where
  /-- Reset takes effect at a clock edge only. -/
  synchronous : Bool
  /-- Reset is asserted by a high level. -/
  activeHigh : Bool
  /-- For how many cycles reset must be asserted. -/
  minCycles : Nat
deriving DecidableEq, Repr, Inhabited

/-- RESET_FORM, the electrical form of reset: OPEN (R9, R113). No rule depends on it and nothing in the model reads it.
DESIGN CHOICE (log 5), safe. -/
opaque Config.resetForm : ResetForm

end Sys2Proof
end

