-- ==== Sys2Proof/Machine/State.lean ====
section
/-! DEFINITION. The state of the CORE: the architectural tuple (KEY, KEYV, FB, CNT) of R17, the interface bookkeeping of
R27 and R28, and the model's own record of the outside world. -/

namespace Sys2Proof.Machine

/-- What the outside world does to the CORE, one transfer or event each (R26, R96). -/
inductive HostEvent where
  /-- The host transfers a command word on the command channel (R26). -/
  | command (cw : CmdWord)
  /-- The host takes the response on the response channel (R26). -/
  | take
  /-- Reset occurs (R113). -/
  | reset
  /-- A moment in which the host does nothing: a command in flight completes before it passes, since LAT is open and the
  host may wait as long as it likes (R9, R117). DESIGN CHOICE (log 4), safe. -/
  | idle
deriving DecidableEq, Repr

/-- Where the one command that can be in flight stands (R27). -/
inductive Port where
  /-- No command is in flight: the CORE waits for the next one (R96). -/
  | idle
  /-- This command word has been accepted and has not completed (R28). -/
  | accepted (cw : CmdWord)
  /-- The command has completed and this response is not yet delivered (R27). -/
  | responding (r : RspWord)
deriving DecidableEq, Repr

/-- The machine. `key`, `keyv`, `fb` and `cnt` are the whole architectural state (R17). -/
structure State where
  /-- KEY, the key of the current session (R18). -/
  key : Byte
  /-- KEYV: KEY holds a key written by KEYGEN or KEYLD (R19). -/
  keyv : Bool
  /-- FB, the byte the next chain step XORs with (R20). -/
  fb : Byte
  /-- CNT, the chain steps completed since the start of the session, modulo 2^32 (R22). -/
  cnt : Counter
  /-- The command in flight or the response held for the host: interface bookkeeping (R27, R28). -/
  port : Port
  /-- The MODEL's own: what the host will do, the next first. DESIGN CHOICE (log 1), safe. -/
  inbox : List HostEvent
  /-- The MODEL's own: the responses the host has taken, the first taken first (R96). DESIGN CHOICE (log 9), safe. -/
  outbox : List RspWord
deriving DecidableEq, Repr

/-- Why the machine stops with a fault: never. The CORE never stops by itself and never hangs (R96), and a command error is
a response, no stop (R108, R109). DEDUCED (log 6), safe. -/
inductive Fault where
deriving DecidableEq, Repr

/-- Why the model refuses an instruction. -/
inductive Refusal where
  /-- Raised by an arm of `exec` for an instruction that has no meaning in the model. No arm raises it. Safe. -/
  | notModelled (mnemonic : String)
deriving DecidableEq, Repr

/-- The machine right after reset (R113, R114): KEY = 0x00, KEYV = 0, FB = IV, CNT = 0, no command in flight. The host's
events and the responses taken are the model's own fields; at reset both are empty. DESIGN CHOICE (logs 8 and 9), safe. -/
def State.reset : State :=
  { key := 0x00#8, keyv := false, fb := Config.iv, cnt := 0#32, port := .idle, inbox := [], outbox := [] }

end Sys2Proof.Machine
end

