-- ==== Sys2Proof/Machine/Ops.lean ====
section
/-! DEFINITION. The shared operations: the notation of R12, the document's functions on bytes (R54, R59, R64, R72, R73), the
response word (R44), command errors (R98, R108) and the writes of the state (R38). -/

namespace Sys2Proof.Machine

/-! ### Notation (R12) -/

/-- shl8(b, n), the 8-bit logical left shift. -/
def shl8 (b : Byte) (n : Nat) : Byte := b <<< n

/-- shr8(b, n), the 8-bit logical right shift. -/
def shr8 (b : Byte) (n : Nat) : Byte := b >>> n

/-- zext_8 of one bit. -/
def zext8 (v : Bool) : Byte := (BitVec.ofBool v).setWidth 8

/-- The positions 0 to 7 of a byte, in rising order. -/
def bitPositions : List BitPos := [0, 1, 2, 3, 4, 5, 6, 7]

/-- The indexes of `for k in 0..n-1`: none when n = 0. -/
def below (n : BitPos) : List BitPos := bitPositions.filter fun k => k < n

/-! ### BitField (R54) -/

/-- getBit(b, pos): the bit at `pos`. A position is in 0..7 by its type, the only positions for which the document defines
it (R54). DEDUCED (log 7), safe. -/
def getBit (b : Byte) (pos : BitPos) : Bool := b.getLsbD pos.val

/-- setBit(b, pos): `b` with bit `pos` forced to 1. -/
def setBit (b : Byte) (pos : BitPos) : Byte := b ||| shl8 1#8 pos.val

/-- clearBit(b, pos): `b` with bit `pos` forced to 0. -/
def clearBit (b : Byte) (pos : BitPos) : Byte := b &&& ~~~ shl8 1#8 pos.val

/-- The byte that `start` becomes when each position of `at_` whose test holds is set in turn, its destination given by
`dest`: the loop `if … = 1: r <- setBit(r, …)` that R59, R64, R72 and R73 share. -/
def setWhere (start : Byte) (at_ : List BitPos) (test : BitPos → Bool) (dest : BitPos → BitPos) : Byte :=
  at_.foldl (fun r k => if test k then setBit r (dest k) else r) start

/-- brev8(k): the bit reversal of a byte, bit i of it bit 7−i of `k` (R12). -/
def brev8 (k : Byte) : Byte := setWhere 0x00#8 bitPositions (fun i => getBit k (7 - i)) id

/-! ### CircularRotate (R59) -/

/-- rotateLeft(b, n): the plain shift, with each captured top bit 7−k set at n−1−k. -/
def rotateLeft (b : Byte) (n : BitPos) : Byte :=
  setWhere (shl8 b n.val) (below n) (fun k => getBit b (7 - k)) (fun k => n - 1 - k)

/-- rotateRight(b, n): the plain shift, with each captured bottom bit k set at k+8−n (in `Fin 8`, k−n). -/
def rotateRight (b : Byte) (n : BitPos) : Byte :=
  setWhere (shr8 b n.val) (below n) (fun k => getBit b k) (fun k => k - n)

/-! ### KeyScheduler (R64) -/

/-- computeKey(seed): the seed as a byte whose high nibble is zero, with bit 7−i set for each bit i in 0..3 that is 1. -/
def computeKey (seed : Seed) : Byte :=
  let wide : Byte := seed.setWidth 8
  setWhere wide [0, 1, 2, 3] (fun i => getBit wide i) (fun i => 7 - i)

/-! ### ByteCipher (R72, R73) -/

/-- encryptByte(src, key): rotate left by 2, then output bit i is bit i XOR key bit 7−i (R72). -/
def encryptByte (src key : Byte) : Byte :=
  let r := rotateLeft src 2
  setWhere 0x00#8 bitPositions (fun i => getBit r i ^^ getBit key (7 - i)) id

/-- decryptByte(ct, key): bit i XOR key bit 7−i, then rotate right by 2 (R73). -/
def decryptByte (ct key : Byte) : Byte :=
  rotateRight (setWhere 0x00#8 bitPositions (fun i => getBit ct i ^^ getBit key (7 - i)) id) 2

/-! ### The response word (R44) and the error codes (R98) -/

/-- The command errors of R98. -/
inductive ErrCode where
  /-- The word is not a command (R99). -/
  | illegal
  /-- A bit position above 7 (R100). -/
  | bitpos
  /-- A rotation amount above 7 (R101). -/
  | rotamt
  /-- A seed above 15 (R102). -/
  | seed
  /-- A register selector above 7 (R103). -/
  | regsel
  /-- A chain step with no key (R104). -/
  | nokey
deriving DecidableEq, Repr

/-- The code an error is reported with (R98). -/
def ErrCode.code : ErrCode → BitVec 4
  | .illegal => 0x1#4
  | .bitpos => 0x2#4
  | .rotamt => 0x3#4
  | .seed => 0x4#4
  | .regsel => 0x5#4
  | .nokey => 0x6#4

/-- The response word with these fields: ERR in bits 11:8, RES in bits 7:0 (R44). -/
def mkRsp (err : BitVec 4) (res : Byte) : RspWord := err ++ res

/-- ERR = rsp[11:8] (R44). -/
def errOf (r : RspWord) : BitVec 4 := r.extractLsb' 8 4

/-- RES = rsp[7:0] (R44). -/
def resOf (r : RspWord) : Byte := r.extractLsb' 0 8

/-- The response of a command that completed (R44, R95). -/
def okRsp (res : Byte) : RspWord := mkRsp 0x0#4 res

/-- The response of a command that ended with an error: RES is 0x00 (R98, R108). -/
def errRsp (e : ErrCode) : RspWord := mkRsp e.code 0x00#8

/-! ### How a command ends -/

/-- The command completes: its result is its response, held until the host takes it (R95, R27). -/
def State.respond (s : State) (res : Byte) : State := { s with port := .responding (okRsp res) }

/-- `raise E`: the command ends at once with ERR = code(E), RES = 0x00 and no change to any state (R108). This is the
CORE's whole way of taking an exception: nothing is saved, no mode changes, control goes nowhere, and there is no return
(R109). -/
def State.raiseError (s : State) (e : ErrCode) : State := { s with port := .responding (errRsp e) }

/-! ### The writes of the state (R38) -/

/-- A session start leaves FB = IV and CNT = 0 (R81). -/
def State.startSession (s : State) : State := { s with fb := Config.iv, cnt := 0#32 }

/-- A key is written, which starts a new session (R68, R69). -/
def State.installKey (s : State) (k : Byte) : State := { s with key := k, keyv := true }.startSession

/-- The key is discarded and the session ended (R85). -/
def State.discardKey (s : State) : State := { s with key := 0x00#8, keyv := false }.startSession

/-- A chain step completes: FB takes the step's ciphertext byte and CNT counts it, modulo 2^32 (R82, R83, R22). -/
def State.advanceChain (s : State) (ciphertext : Byte) : State := { s with fb := ciphertext, cnt := s.cnt + 1#32 }

end Sys2Proof.Machine
end

