-- ==== Sys2Proof/Machine/Flags.lean ====
section
/-! DEFINITION. The CORE's one flag, KEYV (R19), as software reads it: the FLAGS view of RDREG (R25). There are no condition
codes. -/

namespace Sys2Proof.Machine

/-- FLAGS, selector 6: bit 0 is KEYV and bits 7:1 are hardwired to 0 (R25). -/
def flagsView (keyv : Bool) : Byte := zext8 keyv

end Sys2Proof.Machine
end

