-- ==== Sys2Proof/Machine/Operands.lean ====
section
/-! DEFINITION. The operand forms: field B as a bit position, a rotation amount, a seed or a register selector, each checked
against its range and never wrapped or truncated (R45), and the numbered registers (R24). -/

namespace Sys2Proof.Machine

/-- A byte as an index in 0..7, none when it is above 7. -/
def index8 (b : Byte) : Option BitPos :=
  if h : b.toNat < 8 then some ⟨b.toNat, h⟩ else none

/-- B as a bit position (R55 to R57). -/
def posOperand (b : Byte) : Option BitPos := index8 b

/-- B as a rotation amount (R61, R62). -/
def rotOperand (b : Byte) : Option BitPos := index8 b

/-- B as a seed: none above 15, never reduced to its low nibble (R68, R70). -/
def seedOperand (b : Byte) : Option Seed :=
  if b.toNat ≤ 15 then some (b.setWidth 4) else none

/-- The numbered registers of R24. -/
inductive Reg where
  /-- 0: KEY. -/
  | key
  /-- 1: FB. -/
  | fb
  /-- 2: CNT[7:0]. -/
  | cnt0
  /-- 3: CNT[15:8]. -/
  | cnt1
  /-- 4: CNT[23:16]. -/
  | cnt2
  /-- 5: CNT[31:24]. -/
  | cnt3
  /-- 6: FLAGS. -/
  | flags
  /-- 7: IVC, the IV constant. -/
  | ivc
deriving DecidableEq, Repr

/-- The register with a number in 0..7 (R24). -/
def Reg.ofNumber (n : BitPos) : Reg :=
  match n with
  | 0 => .key
  | 1 => .fb
  | 2 => .cnt0
  | 3 => .cnt1
  | 4 => .cnt2
  | 5 => .cnt3
  | 6 => .flags
  | 7 => .ivc

/-- B as a register selector: selectors 8 to 255 are not registers (R24, R94). -/
def selOperand (b : Byte) : Option Reg := (index8 b).map Reg.ofNumber

/-- The 8-bit value a register reads as (R24, R35). Reading has no side effect (R94). -/
def State.readReg (s : State) : Reg → Byte
  | .key => s.key
  | .fb => s.fb
  | .cnt0 => s.cnt.extractLsb' 0 8
  | .cnt1 => s.cnt.extractLsb' 8 8
  | .cnt2 => s.cnt.extractLsb' 16 8
  | .cnt3 => s.cnt.extractLsb' 24 8
  | .flags => flagsView s.keyv
  | .ivc => Config.iv

/-- Run a command on a checked operand: the error when the check failed, before any write (R95, R108). -/
def State.withOperand {α : Type} (s : State) (operand : Option α) (e : ErrCode) (run : α → State) : State :=
  match operand with
  | some v => run v
  | none => s.raiseError e

/-- Run a chain step under the session key: E_NOKEY when no key is installed, before any write (R104). -/
def State.withKey (s : State) (run : Byte → State) : State :=
  if s.keyv then run s.key else s.raiseError .nokey

end Sys2Proof.Machine
end

