-- ==== Sys2Proof/Machine/BitField.lean ====
section
/-! DEFINITION. BitField: GETBIT, SETBIT, CLRBIT (R55 to R57). None of them writes state. -/

namespace Sys2Proof.Machine

/-- GETBIT (R55): bit `b` of `a`, zero-extended to a byte. -/
def execGetbit (a b : Byte) (s : State) : Host.Outcome State Fault Refusal :=
  .next (s.withOperand (posOperand b) .bitpos fun pos => s.respond (zext8 (getBit a pos)))

/-- SETBIT (R56): `a` with bit `b` forced to 1. -/
def execSetbit (a b : Byte) (s : State) : Host.Outcome State Fault Refusal :=
  .next (s.withOperand (posOperand b) .bitpos fun pos => s.respond (setBit a pos))

/-- CLRBIT (R57): `a` with bit `b` forced to 0. -/
def execClrbit (a b : Byte) (s : State) : Host.Outcome State Fault Refusal :=
  .next (s.withOperand (posOperand b) .bitpos fun pos => s.respond (clearBit a pos))

end Sys2Proof.Machine
end

