-- ==== Sys2Proof/Machine/ByteCipher.lean ====
section
/-! DEFINITION. ByteCipher: ENCB, DECB (R76, R77). Both take their key from the command word; neither reads nor writes
state. -/

namespace Sys2Proof.Machine

/-- ENCB (R76): encryptByte of `a` under the key `b`, no chaining. -/
def execEncb (a b : Byte) (s : State) : Host.Outcome State Fault Refusal :=
  .next (s.respond (encryptByte a b))

/-- DECB (R77): decryptByte of `a` under the key `b`, no chaining. -/
def execDecb (a b : Byte) (s : State) : Host.Outcome State Fault Refusal :=
  .next (s.respond (decryptByte a b))

end Sys2Proof.Machine
end

