-- ==== Sys2Proof/Machine/ChainEngine.lean ====
section
/-! DEFINITION. ChainEngine: ENC, DEC, CRST, KCLR (R82 to R85). -/

namespace Sys2Proof.Machine

/-- The ciphertext byte of an encryption step on the plaintext byte `p` (R82). -/
def State.chainCipher (s : State) (p key : Byte) : Byte := encryptByte (p ^^^ s.fb) key

/-- The plaintext byte of a decryption step on the ciphertext byte `c` (R83). -/
def State.chainPlain (s : State) (c key : Byte) : Byte := decryptByte c key ^^^ s.fb

/-- ENC (R82): encrypt `a` XOR FB; FB takes the ciphertext byte, which is the result. -/
def execEnc (a : Byte) (s : State) : Host.Outcome State Fault Refusal :=
  .next (s.withKey fun key => (s.advanceChain (s.chainCipher a key)).respond (s.chainCipher a key))

/-- DEC (R83): decrypt `a`, then XOR with FB; FB takes `a`, the ciphertext byte consumed, not the result. -/
def execDec (a : Byte) (s : State) : Host.Outcome State Fault Refusal :=
  .next (s.withKey fun key => (s.advanceChain a).respond (s.chainPlain a key))

/-- CRST (R84): a new session with the same key. -/
def execCrst (s : State) : Host.Outcome State Fault Refusal :=
  .next (s.startSession.respond 0x00#8)

/-- KCLR (R85): end the session and discard the key. -/
def execKclr (s : State) : Host.Outcome State Fault Refusal :=
  .next (s.discardKey.respond 0x00#8)

end Sys2Proof.Machine
end

