-- ==== Sys2Proof/Machine/Control.lean ====
section
/-! DEFINITION. Control: NOP, RDREG (R93, R94), and the effect of a word that is not a command (R95, R99). -/

namespace Sys2Proof.Machine

/-- NOP (R93): a response and no effect. -/
def execNop (s : State) : Host.Outcome State Fault Refusal :=
  .next (s.respond 0x00#8)

/-- RDREG (R94): the register numbered `b`, or E_REGSEL. -/
def execRdreg (b : Byte) (s : State) : Host.Outcome State Fault Refusal :=
  .next (s.withOperand (selOperand b) .regsel fun reg => s.respond (s.readReg reg))

/-- An illegal word raises E_ILLEGAL and changes no state (R49, R95). -/
def execIllegal (s : State) : Host.Outcome State Fault Refusal :=
  .next (s.raiseError .illegal)

end Sys2Proof.Machine
end

