-- ==== Sys2Proof/Machine/KeyScheduler.lean ====
section
/-! DEFINITION. KeyScheduler: KEYGEN, KEYLD, KEYCALC (R68 to R70). -/

namespace Sys2Proof.Machine

/-- KEYGEN (R68): install the key of the seed `b`, start a new session, and return the key. Seed 0 is accepted (C1). -/
def execKeygen (b : Byte) (s : State) : Host.Outcome State Fault Refusal :=
  .next (s.withOperand (seedOperand b) .seed fun seed => (s.installKey (computeKey seed)).respond (computeKey seed))

/-- KEYLD (R69): install the byte `a` as the key, palindrome or not, start a new session, and return it. -/
def execKeyld (a : Byte) (s : State) : Host.Outcome State Fault Refusal :=
  .next ((s.installKey a).respond a)

/-- KEYCALC (R70): the key of the seed `b`; no state is written. -/
def execKeycalc (b : Byte) (s : State) : Host.Outcome State Fault Refusal :=
  .next (s.withOperand (seedOperand b) .seed fun seed => s.respond (computeKey seed))

end Sys2Proof.Machine
end

