-- ==== Sys2Proof/Machine/Rotate.lean ====
section
/-! DEFINITION. CircularRotate: ROTL, ROTR (R61, R62). Neither writes state. -/

namespace Sys2Proof.Machine

/-- ROTL (R61): `a` rotated left by `b`; an amount of 8 is an error, not 0. -/
def execRotl (a b : Byte) (s : State) : Host.Outcome State Fault Refusal :=
  .next (s.withOperand (rotOperand b) .rotamt fun n => s.respond (rotateLeft a n))

/-- ROTR (R62): `a` rotated right by `b`. -/
def execRotr (a b : Byte) (s : State) : Host.Outcome State Fault Refusal :=
  .next (s.withOperand (rotOperand b) .rotamt fun n => s.respond (rotateRight a n))

end Sys2Proof.Machine
end

