-- ==== Sys2Proof/Syntax.lean ====
section
/-! DEFINITION. The sixteen commands of command set revision 1 (R46), one constructor per row of the opcode table, and
their mnemonics. An operand is the raw byte of its field (R45): ranges are checked when the command executes (R48). -/

namespace Sys2Proof

/-- A command with its operands; `a` is the field A, `b` the field B of the command word. A field that R46 marks "0" is no
argument. -/
inductive Instr where
  /-- NOP: do nothing (R93). -/
  | nop
  /-- GETBIT a, pos: get bit `b` of `a` (R55). -/
  | getbit (a b : Byte)
  /-- SETBIT a, pos: force bit `b` of `a` to 1 (R56). -/
  | setbit (a b : Byte)
  /-- CLRBIT a, pos: force bit `b` of `a` to 0 (R57). -/
  | clrbit (a b : Byte)
  /-- ROTL a, n: rotate `a` left by `b` (R61). -/
  | rotl (a b : Byte)
  /-- ROTR a, n: rotate `a` right by `b` (R62). -/
  | rotr (a b : Byte)
  /-- KEYGEN seed: derive the session key from the seed `b` (R68). -/
  | keygen (b : Byte)
  /-- KEYLD key: load the key byte `a` (R69). -/
  | keyld (a : Byte)
  /-- KEYCALC seed: compute the key of the seed `b` without installing it (R70). -/
  | keycalc (b : Byte)
  /-- ENCB src, key: encrypt the byte `a` under the key `b` (R76). -/
  | encb (a b : Byte)
  /-- DECB ct, key: decrypt the byte `a` under the key `b` (R77). -/
  | decb (a b : Byte)
  /-- ENC p: one encryption chain step on the plaintext byte `a` (R82). -/
  | enc (a : Byte)
  /-- DEC c: one decryption chain step on the ciphertext byte `a` (R83). -/
  | dec (a : Byte)
  /-- CRST: start a new session with the same key (R84). -/
  | crst
  /-- KCLR: end the session and discard the key (R85). -/
  | kclr
  /-- RDREG sel: read the register numbered `b` (R94). -/
  | rdreg (b : Byte)
deriving DecidableEq, Repr

/-- The sixteen mnemonics of R46. -/
inductive Mnemonic where
  | nop | getbit | setbit | clrbit | rotl | rotr | keygen | keyld
  | keycalc | encb | decb | enc | dec | crst | kclr | rdreg
deriving DecidableEq, Repr

/-- Which row of R46 a command belongs to. -/
def Instr.mnemonic : Instr → Mnemonic
  | .nop => .nop
  | .getbit _ _ => .getbit
  | .setbit _ _ => .setbit
  | .clrbit _ _ => .clrbit
  | .rotl _ _ => .rotl
  | .rotr _ _ => .rotr
  | .keygen _ => .keygen
  | .keyld _ => .keyld
  | .keycalc _ => .keycalc
  | .encb _ _ => .encb
  | .decb _ _ => .decb
  | .enc _ => .enc
  | .dec _ => .dec
  | .crst => .crst
  | .kclr => .kclr
  | .rdreg _ => .rdreg

end Sys2Proof
end

