-- ==== Sys2Proof/Machine/Dispatch.lean ====
section
/-! DEFINITION. The meaning of each command (R95's table), one arm per constructor. -/

namespace Sys2Proof.Machine

def exec (i : Instr) (s : State) : Host.Outcome State Fault Refusal :=
  match i with
  | .nop => Sys2Proof.Machine.execNop s
  | .getbit a b => Sys2Proof.Machine.execGetbit a b s
  | .setbit a b => Sys2Proof.Machine.execSetbit a b s
  | .clrbit a b => Sys2Proof.Machine.execClrbit a b s
  | .rotl a b => Sys2Proof.Machine.execRotl a b s
  | .rotr a b => Sys2Proof.Machine.execRotr a b s
  | .keygen b => Sys2Proof.Machine.execKeygen b s
  | .keyld a => Sys2Proof.Machine.execKeyld a s
  | .keycalc b => Sys2Proof.Machine.execKeycalc b s
  | .encb a b => Sys2Proof.Machine.execEncb a b s
  | .decb a b => Sys2Proof.Machine.execDecb a b s
  | .enc a => Sys2Proof.Machine.execEnc a s
  | .dec a => Sys2Proof.Machine.execDec a s
  | .crst => Sys2Proof.Machine.execCrst s
  | .kclr => Sys2Proof.Machine.execKclr s
  | .rdreg b => Sys2Proof.Machine.execRdreg b s

end Sys2Proof.Machine
end

