-- ==== Sys2Proof/WellFormed.lean ====
section
/-! DEFINITION. What the spec asks of a command's operands. The encoding asks nothing beyond their width, which the types
of `Instr` already hold; the document's ranges are asked when a command executes (R45, R48). -/

namespace Sys2Proof

/-- An instruction that has a command word. Every operand value 0 to 255 is encoded into its field unchanged, also one that
the command rejects when it runs (R45, R52), so every term of `Instr` is well formed: there is no further check. -/
def Instr.wellFormed : Instr → Bool
  | .nop | .crst | .kclr => true
  | .keygen _ | .keyld _ | .keycalc _ | .enc _ | .dec _ | .rdreg _ => true
  | .getbit _ _ | .setbit _ _ | .clrbit _ _ | .rotl _ _ | .rotr _ _ | .encb _ _ | .decb _ _ => true

/-- The operand lies in the range the document gives it (R45): a bit position, a rotation amount and a register selector
in 0..7, a seed in 0..15; every other operand is any byte. A command whose operand is out of range is still a command: it
raises a command error when it runs (R100 to R103). -/
def Instr.inRange : Instr → Bool
  | .getbit _ b | .setbit _ b | .clrbit _ b => b.toNat ≤ 7
  | .rotl _ b | .rotr _ b => b.toNat ≤ 7
  | .keygen b | .keycalc b => b.toNat ≤ 15
  | .rdreg b => b.toNat ≤ 7
  | .nop | .crst | .kclr | .keyld _ | .enc _ | .dec _ | .encb _ _ | .decb _ _ => true

end Sys2Proof
end

