-- ==== Sys2Proof/Decode.lean ====
section
/-! DEFINITION. The command word: its fields (R43), the decoder (R47, R48), what makes a word illegal (R49), and the
encoder (R46, R51). -/

namespace Sys2Proof

/-- OPC = cw[31:24] (R43). -/
def opcOf (cw : CmdWord) : Byte := cw.extractLsb' 24 8

/-- RSV = cw[23:16] (R43). -/
def rsvOf (cw : CmdWord) : Byte := cw.extractLsb' 16 8

/-- B = cw[15:8] (R43, R45). -/
def opB (cw : CmdWord) : Byte := cw.extractLsb' 8 8

/-- A = cw[7:0] (R43, R45). -/
def opA (cw : CmdWord) : Byte := cw.extractLsb' 0 8

/-- The opcode of a mnemonic (R46). -/
def Mnemonic.opcode : Mnemonic → Byte
  | .nop => 0x00#8
  | .getbit => 0x01#8
  | .setbit => 0x02#8
  | .clrbit => 0x03#8
  | .rotl => 0x10#8
  | .rotr => 0x11#8
  | .keygen => 0x20#8
  | .keyld => 0x21#8
  | .keycalc => 0x22#8
  | .encb => 0x30#8
  | .decb => 0x31#8
  | .enc => 0x40#8
  | .dec => 0x41#8
  | .crst => 0x42#8
  | .kclr => 0x43#8
  | .rdreg => 0x50#8

/-- Field A is an operand of the command (R46). -/
def Mnemonic.usesA : Mnemonic → Bool
  | .getbit | .setbit | .clrbit | .rotl | .rotr | .keyld | .encb | .decb | .enc | .dec => true
  | .nop | .keygen | .keycalc | .crst | .kclr | .rdreg => false

/-- Field B is an operand of the command (R46). -/
def Mnemonic.usesB : Mnemonic → Bool
  | .getbit | .setbit | .clrbit | .rotl | .rotr | .keygen | .keycalc | .encb | .decb | .rdreg => true
  | .nop | .keyld | .enc | .dec | .crst | .kclr => false

/-- A row of R47's table: `cw` is the command exactly when `cw & mask = pattern`. -/
structure OpRow where
  /-- The command. -/
  mnemonic : Mnemonic
  /-- The table's match value. -/
  pattern : CmdWord
  /-- The table's mask. -/
  mask : CmdWord
deriving DecidableEq, Repr

/-- The word passes the row's test (R47). -/
def OpRow.admits (r : OpRow) (cw : CmdWord) : Bool := cw &&& r.mask == r.pattern

/-- R47's table of match and mask values. -/
def opRows : List OpRow :=
  [ ⟨.nop, 0x00000000#32, 0xFFFFFFFF#32⟩,
    ⟨.getbit, 0x01000000#32, 0xFFFF0000#32⟩,
    ⟨.setbit, 0x02000000#32, 0xFFFF0000#32⟩,
    ⟨.clrbit, 0x03000000#32, 0xFFFF0000#32⟩,
    ⟨.rotl, 0x10000000#32, 0xFFFF0000#32⟩,
    ⟨.rotr, 0x11000000#32, 0xFFFF0000#32⟩,
    ⟨.keygen, 0x20000000#32, 0xFFFF00FF#32⟩,
    ⟨.keyld, 0x21000000#32, 0xFFFFFF00#32⟩,
    ⟨.keycalc, 0x22000000#32, 0xFFFF00FF#32⟩,
    ⟨.encb, 0x30000000#32, 0xFFFF0000#32⟩,
    ⟨.decb, 0x31000000#32, 0xFFFF0000#32⟩,
    ⟨.enc, 0x40000000#32, 0xFFFFFF00#32⟩,
    ⟨.dec, 0x41000000#32, 0xFFFFFF00#32⟩,
    ⟨.crst, 0x42000000#32, 0xFFFFFFFF#32⟩,
    ⟨.kclr, 0x43000000#32, 0xFFFFFFFF#32⟩,
    ⟨.rdreg, 0x50000000#32, 0xFFFF00FF#32⟩ ]

/-- What R48's decode answers: Illegal, or a command with its operands. -/
inductive Decoded where
  /-- The word is not a command (R49). -/
  | illegal
  /-- The word is this command. -/
  | cmd (i : Instr)
deriving DecidableEq, Repr

/-- The command of a mnemonic with the fields A and B of its word (R48); a field the command does not use is not kept. -/
def Instr.ofFields (m : Mnemonic) (a b : Byte) : Instr :=
  match m with
  | .nop => .nop
  | .getbit => .getbit a b
  | .setbit => .setbit a b
  | .clrbit => .clrbit a b
  | .rotl => .rotl a b
  | .rotr => .rotr a b
  | .keygen => .keygen b
  | .keyld => .keyld a
  | .keycalc => .keycalc b
  | .encb => .encb a b
  | .decb => .decb a b
  | .enc => .enc a
  | .dec => .dec a
  | .crst => .crst
  | .kclr => .kclr
  | .rdreg => .rdreg b

/-- Decoding, total over the command words (R48): the first row of the table that the word passes (no word passes two,
R47), with the operands A and B; Illegal when it passes none. -/
def decode (cw : CmdWord) : Decoded :=
  match opRows.find? (fun r => r.admits cw) with
  | some r => .cmd (Instr.ofFields r.mnemonic (opA cw) (opB cw))
  | none => .illegal

/-- The sixteen mnemonics in the table's order. -/
def allMnemonics : List Mnemonic := opRows.map OpRow.mnemonic

/-- A word is a command, told by its fields and not by the masks (R49): its OPC is one of the sixteen, its RSV is 0x00, and
every operand field its command does not use is 0x00. -/
def legalWord (cw : CmdWord) : Bool :=
  allMnemonics.any fun m =>
    opcOf cw == m.opcode && rsvOf cw == 0#8 && (m.usesA || opA cw == 0#8) && (m.usesB || opB cw == 0#8)

/-! ### The encoder -/

/-- The word with these fields and RSV = 0x00 (R43). -/
def mkWord (opc b a : Byte) : CmdWord := opc ++ 0x00#8 ++ b ++ a

/-- Field A of a command's word: its operand, or 0x00 where it has none (R46). -/
def Instr.fieldA : Instr → Byte
  | .getbit a _ | .setbit a _ | .clrbit a _ | .rotl a _ | .rotr a _ | .encb a _ | .decb a _ => a
  | .keyld a | .enc a | .dec a => a
  | .nop | .keygen _ | .keycalc _ | .crst | .kclr | .rdreg _ => 0x00#8

/-- Field B of a command's word: its operand, or 0x00 where it has none (R46). -/
def Instr.fieldB : Instr → Byte
  | .getbit _ b | .setbit _ b | .clrbit _ b | .rotl _ b | .rotr _ b | .encb _ b | .decb _ b => b
  | .keygen b | .keycalc b | .rdreg b => b
  | .nop | .keyld _ | .enc _ | .dec _ | .crst | .kclr => 0x00#8

/-- The command word of a command: R51's encoding of its written form. -/
def encode (i : Instr) : CmdWord := mkWord i.mnemonic.opcode i.fieldB i.fieldA

/-! ### The opcode table's numbering of bits -/

/-- The command word whose value is `w`, of which the low `nbits` bits are given: a command word is transferred as one
32-bit value, so no byte order arises (R34, R50). DEDUCED (log 12), safe. -/
def tableWord (nbits w : Nat) : CmdWord := BitVec.ofNat 32 (w % 2 ^ nbits)

/-- The instruction the decoder reads from a word numbered as the opcode table numbers it: none where the decoder refuses,
or where the number does not fit in the 32 bits of a command word (R50). -/
def decodeTableWord (nbits w : Nat) : Option Instr :=
  if w % 2 ^ nbits < 2 ^ 32 then
    match decode (tableWord nbits w) with
    | .cmd i => some i
    | .illegal => none
  else none

end Sys2Proof
end

