-- ==== Sys2Proof/Machine/Interface.lean ====
section
/-! DEFINITION. The CORE's interface at the transaction level (R26 to R28): accepting a command, delivering a response,
reset (R113), and which of them is due. -/

namespace Sys2Proof.Machine

/-- The next thing the outside world does is reset. -/
def State.resetNext (s : State) : Bool := s.inbox.head? == some HostEvent.reset

/-- The command in flight, if it completes now: a reset that comes first discards it (R113). DESIGN CHOICE (log 4), safe. -/
def State.dueCommand (s : State) : Option CmdWord :=
  match s.port with
  | .accepted cw => if s.resetNext then none else some cw
  | .idle | .responding _ => none

/-- Reset (R113): every piece of state to its reset value, the command in flight discarded, and no response. A response
still held is discarded with its command, which is in flight until its response is delivered (R28, U9). DEDUCED (log 3),
unsafe. -/
def State.takeReset (s : State) : State :=
  { s with key := 0x00#8, keyv := false, fb := Config.iv, cnt := 0#32, port := .idle }

/-- The command word is accepted (R27). -/
def State.acceptCommand (s : State) (cw : CmdWord) : State := { s with port := .accepted cw }

/-- The held response is delivered (R27). -/
def State.deliver (s : State) (r : RspWord) : State := { s with port := .idle, outbox := s.outbox ++ [r] }

/-- The host's event has happened. -/
def State.consume (s : State) : State := { s with inbox := s.inbox.tail }

/-- What the interface does when no command completes. A reset is taken whatever is in flight. A command transfers only
when none is in flight and no response is undelivered, a response only when one is held (R27); a transfer that cannot be
made, and an empty inbox, leave the CORE waiting and its state unchanged (U9, R96). DESIGN CHOICE (logs 1 and 2), safe. -/
def State.interfaceStep (s : State) : State :=
  match s.inbox.head?, s.port with
  | some .reset, _ => s.consume.takeReset
  | some (.command cw), .idle => s.consume.acceptCommand cw
  | some .take, .responding r => s.consume.deliver r
  | some .idle, _ => s.consume
  | _, _ => s

/-- `s` with the command word `cw` transferred: accepted in place of whatever was in flight, and no reset before it
completes (log 8). -/
def State.placeCommand (s : State) (cw : CmdWord) : State :=
  { s with port := .accepted cw, inbox := s.inbox.dropWhile (· == HostEvent.reset) }

end Sys2Proof.Machine
end

