-- ==== Sys2Proof/Machine/Step.lean ====
section
/-! DEFINITION. One step of the CORE: the command in flight completes (R95), or the interface makes one transfer or takes a
reset (R26, R113). -/

namespace Sys2Proof.Machine

/-- What a command word does when it completes: decoding, then its command's rule or E_ILLEGAL (R95). -/
def runWord (cw : CmdWord) (s : State) : Host.Outcome State Fault Refusal :=
  match decode cw with
  | .cmd i => exec i s
  | .illegal => execIllegal s

/-- One step. A command's whole effect is one step (R26, R37): decoding, its rule, and its response (R95). Every other step
is the interface's. It answers a next state always (R96). -/
def step (s : State) : Host.Outcome State Fault Refusal :=
  match s.dueCommand with
  | some cw => runWord cw s
  | none => .next s.interfaceStep

/-- `s` with the instruction numbered `w` as the command that the next step runs: the host has transferred it and no reset
comes before it completes. The CORE fetches nothing (R16): this stands for the host's transfer. DESIGN CHOICE (log 8),
safe. -/
def State.withFetchWord (s : State) (nbits w : Nat) : State := s.placeCommand (tableWord nbits w)

end Sys2Proof.Machine
end

