-- ==== Sys2Proof/Machine/Message.lean ====
section
/-! DEFINITION. The document's functions on whole messages (R78 to R80), the pseudo-operations and their expansion into
commands (R53, R71, R87, R88), and the host's side of a command sequence. No command calls these: the CORE holds no sequence
(R29). -/

namespace Sys2Proof.Machine

/-- Encrypt from the feedback byte `prev`: each byte is XORed with the ciphertext byte before it (R78). -/
def encryptFrom (key prev : Byte) : List Byte → List Byte
  | [] => []
  | p :: ps => encryptByte (p ^^^ prev) key :: encryptFrom key (encryptByte (p ^^^ prev) key) ps

/-- Encrypt(plaintext, key) (R78). -/
def encryptMessage (plaintext : List Byte) (key : Byte) : List Byte := encryptFrom key Config.iv plaintext

/-- Decrypt(ciphertext, key): every source byte by itself, then the XOR with the ciphertext byte before it, the IV for the
first (R79). -/
def decryptMessage (ciphertext : List Byte) (key : Byte) : List Byte :=
  List.zipWith (fun source prev => source ^^^ prev) (ciphertext.map fun c => decryptByte c key) (Config.iv :: ciphertext)

/-- COMPUTEKEY seed is KEYCALC seed (R53, R71). -/
def computeKeyOp (seed : Byte) : List Instr := [.keycalc seed]

/-- ENCRYPT key, [p0, …]: KEYLD key, then one ENC for each byte (R53, R87). -/
def encryptOp (key : Byte) (plaintext : List Byte) : List Instr := .keyld key :: plaintext.map .enc

/-- DECRYPT key, [c0, …]: KEYLD key, then one DEC for each byte (R53, R88). -/
def decryptOp (key : Byte) (ciphertext : List Byte) : List Instr := .keyld key :: ciphertext.map .dec

/-- What a host does that issues these commands in order and takes each response before the next command (R117). -/
def hostScript (commands : List Instr) : List HostEvent :=
  commands.flatMap fun i => [.command (encode i), .take]

end Sys2Proof.Machine
end

