-- ==== Sys2Proof/Machine/Assembler.lean ====
section
/-! DEFINITION. The assembler of R51 to R53: from the written form of a command or pseudo-operation to its command words.
What R51 and R52 leave open of the text (blanks, the case of hexadecimal digits, the spelling of selector names, characters
that ASCII lacks) is settled in logs 10 and 11. DESIGN CHOICE, unsafe. -/

namespace Sys2Proof.Machine

/-- Why the assembler refuses a text. -/
inductive AsmError where
  /-- The text has no tokens of R51's syntax. -/
  | badText
  /-- No mnemonic and no pseudo-operation has this name. -/
  | unknownMnemonic
  /-- An operand is no numeral, character or selector name (R52). -/
  | badOperand
  /-- An operand is above 255 or below 0 (R52). -/
  | operandRange
  /-- An operand is missing, or given for an unused field (R52). -/
  | operandCount
deriving DecidableEq, Repr

/-! ### Operand values and fields -/

/-- An operand value as a field: any value 0 to 255 unchanged, any other refused (R52). -/
def asmByte (v : Int) : Except AsmError Byte :=
  if 0 ≤ v ∧ v ≤ 255 then .ok (BitVec.ofInt 8 v) else .error .operandRange

/-- A command from its used operands, first A then B (R51). A count of operands that is not the number of used fields is
refused (R52). -/
def asmCommand (m : Mnemonic) (operands : List Int) : Except AsmError Instr :=
  match m.usesA, m.usesB, operands with
  | true, true, [a, b] => do return Instr.ofFields m (← asmByte a) (← asmByte b)
  | true, false, [a] => do return Instr.ofFields m (← asmByte a) 0x00#8
  | false, true, [b] => do return Instr.ofFields m 0x00#8 (← asmByte b)
  | false, false, [] => .ok (Instr.ofFields m 0x00#8 0x00#8)
  | _, _, _ => .error .operandCount

/-! ### Tokens -/

/-- A token of the written form. -/
inductive AsmToken where
  /-- A mnemonic, a numeral or a selector name. -/
  | word (cs : List Char)
  /-- A character in single quotes. -/
  | quoted (c : Char)
  | comma
  | openList
  | closeList
deriving DecidableEq, Repr

/-- The word read so far, if any, before the tokens that follow it; `acc` holds its characters, the last first. -/
def endWord (acc : List Char) (rest : List AsmToken) : List AsmToken :=
  if acc.isEmpty then rest else .word acc.reverse :: rest

/-- The tokens of a text; `acc` is the word being read, its last character first. -/
def tokens (acc : List Char) : List Char → Except AsmError (List AsmToken)
  | [] => .ok (endWord acc [])
  | '\'' :: c :: '\'' :: rest => do
    if acc.isEmpty then return .quoted c :: (← tokens [] rest) else .error .badText
  | c :: rest => do
    if c = ' ' ∨ c = '\t' then return endWord acc (← tokens [] rest)
    else if c = ',' then return endWord acc (.comma :: (← tokens [] rest))
    else if c = '[' then return endWord acc (.openList :: (← tokens [] rest))
    else if c = ']' then return endWord acc (.closeList :: (← tokens [] rest))
    else if c.isAlphanum ∨ c = '-' then tokens (c :: acc) rest
    else .error .badText

/-! ### Numerals (R52) -/

/-- The sixteen digits, each at the place that is its value. -/
def digitRow : List Char := "0123456789ABCDEF".toList

/-- The value of a character as a digit of a base of R52 (2, 10 or 16), read without regard to case: its place among the
base's digits, none when it is not among them. -/
def digitIn (base : Nat) (c : Char) : Option Nat := (digitRow.take base).findIdx? fun d => d == c.toUpper

/-- The value of a row of digits of one base, after the digits already read. -/
def digitsValue (base : Nat) (acc : Nat) : List Char → Option Nat
  | [] => some acc
  | c :: cs =>
    match digitIn base c with
    | some d => digitsValue base (base * acc + d) cs
    | none => none

/-- A numeral that has at least one digit. -/
def numeral (base : Nat) (digits : List Char) : Option Nat :=
  if digits.isEmpty then none else digitsValue base 0 digits

/-- A decimal, hexadecimal (0x) or binary (0b) numeral (R52). -/
def natLiteral : List Char → Option Nat
  | '0' :: 'x' :: digits => numeral 16 digits
  | '0' :: 'b' :: digits => numeral 2 digits
  | digits => numeral 10 digits

/-- A numeral with a sign: a value below 0 can be written, and is then refused (R52). -/
def intLiteral : List Char → Option Int
  | '-' :: digits => (natLiteral digits).map fun n => -(n : Int)
  | digits => (natLiteral digits).map fun n => (n : Int)

/-- The number a selector name stands for (R24, R51). -/
def selectorNumber (name : List Char) : Option Int :=
  if name = ['K', 'E', 'Y'] then some 0
  else if name = ['F', 'B'] then some 1
  else if name = ['C', 'N', 'T', '0'] then some 2
  else if name = ['C', 'N', 'T', '1'] then some 3
  else if name = ['C', 'N', 'T', '2'] then some 4
  else if name = ['C', 'N', 'T', '3'] then some 5
  else if name = ['F', 'L', 'A', 'G', 'S'] then some 6
  else if name = ['I', 'V', 'C'] then some 7
  else none

/-- The value of an operand's token; `selectors` allows the selector names, which stand for numbers in RDREG (R51, R52). -/
def operandValue (selectors : Bool) : AsmToken → Except AsmError Int
  | .word cs =>
    match intLiteral cs, selectorNumber cs with
    | some v, _ => .ok v
    | none, some v => if selectors then .ok v else .error .badOperand
    | none, none => .error .badOperand
  | .quoted c => if c.toNat < 128 then .ok (c.toNat : Int) else .error .badOperand
  | .comma | .openList | .closeList => .error .badOperand

/-- One or more operands, comma-separated (R51). -/
def operandRow (selectors : Bool) : List AsmToken → Except AsmError (List Int)
  | [t] => do return [← operandValue selectors t]
  | t :: .comma :: rest => do return (← operandValue selectors t) :: (← operandRow selectors rest)
  | _ => .error .badText

/-- The operands of a command: none, or a row of them (R51). -/
def operandsOf (selectors : Bool) (ts : List AsmToken) : Except AsmError (List Int) :=
  if ts.isEmpty then .ok [] else operandRow selectors ts

/-! ### Names -/

/-- A name of R46, read without regard to case (R51). -/
def mnemonicNamed (name : List Char) : Option Mnemonic :=
  let n := name.map Char.toUpper
  if n = ['N', 'O', 'P'] then some .nop
  else if n = ['G', 'E', 'T', 'B', 'I', 'T'] then some .getbit
  else if n = ['S', 'E', 'T', 'B', 'I', 'T'] then some .setbit
  else if n = ['C', 'L', 'R', 'B', 'I', 'T'] then some .clrbit
  else if n = ['R', 'O', 'T', 'L'] then some .rotl
  else if n = ['R', 'O', 'T', 'R'] then some .rotr
  else if n = ['K', 'E', 'Y', 'G', 'E', 'N'] then some .keygen
  else if n = ['K', 'E', 'Y', 'L', 'D'] then some .keyld
  else if n = ['K', 'E', 'Y', 'C', 'A', 'L', 'C'] then some .keycalc
  else if n = ['E', 'N', 'C', 'B'] then some .encb
  else if n = ['D', 'E', 'C', 'B'] then some .decb
  else if n = ['E', 'N', 'C'] then some .enc
  else if n = ['D', 'E', 'C'] then some .dec
  else if n = ['C', 'R', 'S', 'T'] then some .crst
  else if n = ['K', 'C', 'L', 'R'] then some .kclr
  else if n = ['R', 'D', 'R', 'E', 'G'] then some .rdreg
  else none

/-- The pseudo-operations of R53. -/
inductive PseudoOp where
  | computekey | encrypt | decrypt
deriving DecidableEq, Repr

/-- A name of R53, read without regard to case like every other mnemonic. DESIGN CHOICE
(log 11), unsafe. -/
def pseudoNamed (name : List Char) : Option PseudoOp :=
  let n := name.map Char.toUpper
  if n = ['C', 'O', 'M', 'P', 'U', 'T', 'E', 'K', 'E', 'Y'] then some .computekey
  else if n = ['E', 'N', 'C', 'R', 'Y', 'P', 'T'] then some .encrypt
  else if n = ['D', 'E', 'C', 'R', 'Y', 'P', 'T'] then some .decrypt
  else none

/-! ### Lines -/

/-- The operands of ENCRYPT and DECRYPT: a key, a comma, and a list in brackets, which may be empty (R53, R87). -/
def keyAndList : List AsmToken → Except AsmError (Byte × List Byte)
  | k :: .comma :: .openList :: rest =>
    match rest.getLast? with
    | some .closeList => do
      let key ← asmByte (← operandValue false k)
      let bytes ← (← operandsOf false rest.dropLast).mapM asmByte
      return (key, bytes)
    | _ => .error .badText
  | _ => .error .badText

/-- The commands a pseudo-operation expands into (R53). -/
def asmPseudo (op : PseudoOp) (ts : List AsmToken) : Except AsmError (List Instr) :=
  match op with
  | .computekey => do
    match ← operandsOf false ts with
    | [seed] => return computeKeyOp (← asmByte seed)
    | _ => .error .operandCount
  | .encrypt => do
    let (key, bytes) ← keyAndList ts
    return encryptOp key bytes
  | .decrypt => do
    let (key, bytes) ← keyAndList ts
    return decryptOp key bytes

/-- The commands that one line stands for (R51 to R53). -/
def asmLine (text : List Char) : Except AsmError (List Instr) := do
  match ← tokens [] text with
  | .word name :: ts =>
    match mnemonicNamed name, pseudoNamed name with
    | some m, _ => return [← asmCommand m (← operandsOf (m == .rdreg) ts)]
    | none, some op => asmPseudo op ts
    | none, none => .error .unknownMnemonic
  | _ => .error .badText

/-- The command words that one line assembles to (R51). -/
def assemble (text : List Char) : Except AsmError (List CmdWord) := do
  return (← asmLine text).map encode

end Sys2Proof.Machine
end

