-- ==== Sys2Proof/Safety.lean ====
section
/-! DEFINITION. The terms that claims about the CORE use: the closed forms of the byte functions (R60, R65, R74), what a
command answers, which error it raises (R98), which commands write state (R38), and the invariant that every step keeps. -/

namespace Sys2Proof.Machine

/-! ### Closed forms, written without the loops that the machine runs -/

/-- rotateLeft(b, n) = shl8(b, n) | shr8(b, 8−n) (R60). -/
def rotlForm (b : Byte) (n : Nat) : Byte := (b <<< n) ||| (b >>> (8 - n))

/-- rotateRight(b, n) = shr8(b, n) | shl8(b, 8−n) (R60). -/
def rotrForm (b : Byte) (n : Nat) : Byte := (b >>> n) ||| (b <<< (8 - n))

/-- computeKey(s) = s | brev8(s), the seed held as a byte (R65). -/
def keyForm (seed : Byte) : Byte := seed ||| seed.reverse

/-- encryptByte(src, key) = rotateLeft(src, 2) ^ brev8(key) (R74). -/
def encryptForm (src key : Byte) : Byte := rotlForm src 2 ^^^ key.reverse

/-- decryptByte(ct, key) = rotateRight(ct ^ brev8(key), 2) (R74). -/
def decryptForm (ct key : Byte) : Byte := rotrForm (ct ^^^ key.reverse) 2

/-- popcount(b): the number of bits of b equal to 1 (R12). -/
def popcount (b : Byte) : Nat := (List.range 8).countP fun i => b.getLsbD i

/-! ### What a command answers -/

/-- The command in flight is `cw` and no reset comes first: the next step completes it. -/
def State.runsNext (s : State) (cw : CmdWord) : Prop := s.port = .accepted cw ∧ s.inbox.head? ≠ some .reset

/-- The result of a command that completes without error, none otherwise. -/
def answer (i : Instr) (s : State) : Option Byte :=
  match exec i s with
  | .next t =>
    match t.port with
    | .responding r => if errOf r = 0#4 then some (resOf r) else none
    | .idle | .accepted _ => none
  | .fault _ | .refused _ => none

/-- The results of a sequence of commands, each run on the state its predecessor left. -/
def answers : List Instr → State → List (Option Byte)
  | [], _ => []
  | i :: is, s =>
    answer i s ::
      match exec i s with
      | .next t => answers is t
      | .fault _ | .refused _ => []

/-- What a sequence of command words answers, and the state it leaves: each word run on the state its predecessor left
(R39, R95). -/
def wordRun : List CmdWord → State → List RspWord × State
  | [], s => ([], s)
  | cw :: cws, s =>
    match runWord cw s with
    | .next t =>
      match t.port with
      | .responding r => (r :: (wordRun cws t).1, (wordRun cws t).2)
      | .idle | .accepted _ => wordRun cws t
    | .fault _ | .refused _ => ([], s)

/-- What a host does that transfers these command words in order and takes each response before the next (R117). -/
def wordScript (words : List CmdWord) : List HostEvent := words.flatMap fun cw => [.command cw, .take]

/-! ### Kinds of commands, and their errors -/

/-- A chain step (R82, R83). -/
def chainStepOf : Instr → Bool
  | .enc _ | .dec _ => true
  | .nop | .getbit _ _ | .setbit _ _ | .clrbit _ _ | .rotl _ _ | .rotr _ _ | .keygen _ | .keyld _ | .keycalc _ => false
  | .encb _ _ | .decb _ _ | .crst | .kclr | .rdreg _ => false

/-- KEYGEN or KEYLD, when it completes: the commands that install a key (R19). -/
def installsKey : Instr → Bool
  | .keygen b => b.toNat ≤ 15
  | .keyld _ => true
  | .nop | .getbit _ _ | .setbit _ _ | .clrbit _ _ | .rotl _ _ | .rotr _ _ | .keycalc _ | .encb _ _ | .decb _ _ => false
  | .enc _ | .dec _ | .crst | .kclr | .rdreg _ => false

/-- A command that starts a session: KEYGEN, KEYLD, CRST or KCLR, completed without error (R81). -/
def sessionStart : Instr → Bool
  | .keygen b => b.toNat ≤ 15
  | .keyld _ | .crst | .kclr => true
  | .nop | .getbit _ _ | .setbit _ _ | .clrbit _ _ | .rotl _ _ | .rotr _ _ | .keycalc _ | .encb _ _ | .decb _ _ => false
  | .enc _ | .dec _ | .rdreg _ => false

/-- The word is a command of this kind; an illegal word is of none. -/
def wordIs (kind : Instr → Bool) (cw : CmdWord) : Bool :=
  match decode cw with
  | .cmd i => kind i
  | .illegal => false

/-- The commands without side effect on the state (R38). -/
def pureCommand : Instr → Bool
  | .nop | .getbit _ _ | .setbit _ _ | .clrbit _ _ | .rotl _ _ | .rotr _ _ | .keycalc _ | .encb _ _ | .decb _ _ => true
  | .rdreg _ => true
  | .keygen _ | .keyld _ | .enc _ | .dec _ | .crst | .kclr => false

/-- The error that R98's table gives a command in a state, none when it completes. -/
def errorOf (i : Instr) (s : State) : Option ErrCode :=
  match i with
  | .getbit _ b | .setbit _ b | .clrbit _ b => if b.toNat ≤ 7 then none else some .bitpos
  | .rotl _ b | .rotr _ b => if b.toNat ≤ 7 then none else some .rotamt
  | .keygen b | .keycalc b => if b.toNat ≤ 15 then none else some .seed
  | .rdreg b => if b.toNat ≤ 7 then none else some .regsel
  | .enc _ | .dec _ => if s.keyv then none else some .nokey
  | .nop | .keyld _ | .encb _ _ | .decb _ _ | .crst | .kclr => none

/-- A command that runs without error in this state: its operand is in range, and a chain step has a key (R98). -/
def runsClean (i : Instr) (s : State) : Bool := i.inRange && (s.keyv || !chainStepOf i)

/-- A response the CORE can report: a code of R98, with RES = 0x00 when it is not 0 (R44, R105). -/
def legalRsp (r : RspWord) : Bool := (errOf r).toNat ≤ 6 && (errOf r == 0#4 || resOf r == 0x00#8)

/-! ### Comparing states, and the invariant -/

/-- The two states have the same architectural state (R17). -/
def State.sameRegs (s t : State) : Prop := t.key = s.key ∧ t.keyv = s.keyv ∧ t.fb = s.fb ∧ t.cnt = s.cnt

/-- With no key installed the architectural state is the reset state (R84, U11): KEY = 0x00, FB = IV, CNT = 0. -/
def State.keylessIsReset (s : State) : Prop :=
  s.keyv = false → s.key = 0x00#8 ∧ s.fb = Config.iv ∧ s.cnt = 0#32

/-- Every response held or delivered is one the CORE can report. -/
def State.responsesLegal (s : State) : Prop :=
  (∀ r, s.port = .responding r → legalRsp r = true) ∧ (∀ r ∈ s.outbox, legalRsp r = true)

/-- The invariant of the machine. -/
structure State.Inv (s : State) : Prop where
  /-- Without a key the state is the reset state. -/
  keyless : s.keylessIsReset
  /-- No reserved code is ever reported. -/
  legal : s.responsesLegal

end Sys2Proof.Machine
end

