-- ==== Sys2Proof/Certificates/Slice0/Obligations.lean ====
section
/-! DEFINITION. The statements about the model, each from a numbered rule R<n> of the spec. `{ s with … }` in the conclusion
of a statement about a command names everything the command writes: every field not named there, of the registers, the
interface and the host, is as before. -/

open Sys2Proof Sys2Proof.Machine

/-! ### Encoding -/

/-- Words written out from the encodings of R55, R61, R68, R69, R76, R82, R84 and R94 decode to their commands, and the
spec's illegal words decode to Illegal (R49, R93). -/
def Obligations.SampleWordsDecode : Prop :=
  decode 0x00000000#32 = .cmd .nop ∧ decode 0x0100038A#32 = .cmd (.getbit 0x8A#8 3#8) ∧
  decode 0x1000028A#32 = .cmd (.rotl 0x8A#8 2#8) ∧ decode 0x20000500#32 = .cmd (.keygen 5#8) ∧
  decode 0x21000001#32 = .cmd (.keyld 1#8) ∧ decode 0x3000A58A#32 = .cmd (.encb 0x8A#8 0xA5#8) ∧
  decode 0x40000041#32 = .cmd (.enc 0x41#8) ∧ decode 0x42000000#32 = .cmd .crst ∧
  decode 0x50000100#32 = .cmd (.rdreg 1#8) ∧
  decode 0x00000001#32 = .illegal ∧ decode 0x10010901#32 = .illegal ∧ decode 0x40000141#32 = .illegal ∧
  decode 0xFF000000#32 = .illegal

/-- Decoding the word of a command gives the command back, with every operand at every value (R43, R45 to R48). -/
def Obligations.DecodeOfEncode : Prop :=
  ∀ i : Instr, i.wellFormed = true → decode (encode i) = .cmd i

/-- No two words spell one command, so no bit of a legal word is ignored (R47, R49). -/
def Obligations.EncodeOfDecode : Prop :=
  ∀ (cw : CmdWord) (i : Instr), decode cw = .cmd i → encode i = cw

/-- At most one row of R47's table admits a word. -/
def Obligations.RowsAreDisjoint : Prop :=
  ∀ (cw : CmdWord) (r q : OpRow), r ∈ opRows → q ∈ opRows → r.admits cw = true → q.admits cw = true → r = q

/-- E_ILLEGAL (R99): which words are Illegal, and what executing one does. -/
def Obligations.IllegalWords : Prop :=
  (∀ cw : CmdWord, decode cw = .illegal ↔
    (∀ m : Mnemonic, cw.extractLsb' 24 8 ≠ m.opcode) ∨ cw.extractLsb' 16 8 ≠ 0#8 ∨
    ∃ m : Mnemonic, cw.extractLsb' 24 8 = m.opcode ∧
      ((m.usesA = false ∧ cw.extractLsb' 0 8 ≠ 0#8) ∨ (m.usesB = false ∧ cw.extractLsb' 8 8 ≠ 0#8))) ∧
  (∀ (cw : CmdWord) (s : State), s.runsNext cw → decode cw = .illegal →
    step s = .next { s with port := .responding 0x100#12 })

/-! ### BitField -/

/-- GETBIT (R55): encoding, result for every position, and both errors; no state is written. -/
def Obligations.GetbitCommand : Prop :=
  (∀ (cw : CmdWord) (a b : Byte), decode cw = .cmd (.getbit a b) ↔
    cw &&& 0xFFFF0000#32 = 0x01000000#32 ∧ a = cw.extractLsb' 0 8 ∧ b = cw.extractLsb' 8 8) ∧
  (∀ (cw : CmdWord) (s : State), s.runsNext cw → cw.extractLsb' 24 8 = 0x01#8 → cw.extractLsb' 16 8 ≠ 0#8 →
    step s = .next { s with port := .responding 0x100#12 }) ∧
  (∀ (a b : Byte) (s : State), b.toNat ≤ 7 → exec (.getbit a b) s =
    .next { s with port := .responding (0x0#4 ++ if a.getLsbD b.toNat then 0x01#8 else 0x00#8) }) ∧
  (∀ (a b : Byte) (s : State), 7 < b.toNat → exec (.getbit a b) s = .next { s with port := .responding 0x200#12 })

/-- SETBIT (R56): encoding, result for every position, and both errors; no state is written. -/
def Obligations.SetbitCommand : Prop :=
  (∀ (cw : CmdWord) (a b : Byte), decode cw = .cmd (.setbit a b) ↔
    cw &&& 0xFFFF0000#32 = 0x02000000#32 ∧ a = cw.extractLsb' 0 8 ∧ b = cw.extractLsb' 8 8) ∧
  (∀ (cw : CmdWord) (s : State), s.runsNext cw → cw.extractLsb' 24 8 = 0x02#8 → cw.extractLsb' 16 8 ≠ 0#8 →
    step s = .next { s with port := .responding 0x100#12 }) ∧
  (∀ (a b : Byte) (s : State), b.toNat ≤ 7 → exec (.setbit a b) s =
    .next { s with port := .responding (0x0#4 ++ (a ||| (1#8 <<< b.toNat))) }) ∧
  (∀ (a b : Byte) (s : State), 7 < b.toNat → exec (.setbit a b) s = .next { s with port := .responding 0x200#12 })

/-- CLRBIT (R57): encoding, result for every position, and both errors; no state is written. -/
def Obligations.ClrbitCommand : Prop :=
  (∀ (cw : CmdWord) (a b : Byte), decode cw = .cmd (.clrbit a b) ↔
    cw &&& 0xFFFF0000#32 = 0x03000000#32 ∧ a = cw.extractLsb' 0 8 ∧ b = cw.extractLsb' 8 8) ∧
  (∀ (cw : CmdWord) (s : State), s.runsNext cw → cw.extractLsb' 24 8 = 0x03#8 → cw.extractLsb' 16 8 ≠ 0#8 →
    step s = .next { s with port := .responding 0x100#12 }) ∧
  (∀ (a b : Byte) (s : State), b.toNat ≤ 7 → exec (.clrbit a b) s =
    .next { s with port := .responding (0x0#4 ++ (a &&& ~~~(1#8 <<< b.toNat))) }) ∧
  (∀ (a b : Byte) (s : State), 7 < b.toNat → exec (.clrbit a b) s = .next { s with port := .responding 0x200#12 })

/-- The laws of R58, of the results of the commands in any state: for every byte and any two different positions. -/
def Obligations.BitFieldLaws : Prop :=
  ∀ (s : State) (a p q : Byte), p.toNat ≤ 7 → q.toNat ≤ 7 → p ≠ q →
    ∃ u c : Byte, answer (.setbit a p) s = some u ∧ answer (.clrbit a p) s = some c ∧
      answer (.getbit u p) s = some 1#8 ∧ answer (.getbit c p) s = some 0#8 ∧
      answer (.getbit u q) s = answer (.getbit a q) s ∧ answer (.getbit c q) s = answer (.getbit a q) s ∧
      answer (.setbit u p) s = some u ∧ answer (.clrbit c p) s = some c ∧
      answer (.setbit c p) s = some u ∧ answer (.clrbit u p) s = some c ∧
      (((List.range 8).map fun i => ((answer (.getbit a (BitVec.ofNat 8 i)) s).getD 0xFF#8).toNat * 2 ^ i).sum = a.toNat)

/-! ### CircularRotate -/

/-- ROTL (R61): encoding, the closed form of the result for every amount (R60), and both errors; no state is written. -/
def Obligations.RotlCommand : Prop :=
  (∀ (cw : CmdWord) (a b : Byte), decode cw = .cmd (.rotl a b) ↔
    cw &&& 0xFFFF0000#32 = 0x10000000#32 ∧ a = cw.extractLsb' 0 8 ∧ b = cw.extractLsb' 8 8) ∧
  (∀ (cw : CmdWord) (s : State), s.runsNext cw → cw.extractLsb' 24 8 = 0x10#8 → cw.extractLsb' 16 8 ≠ 0#8 →
    step s = .next { s with port := .responding 0x100#12 }) ∧
  (∀ (a b : Byte) (s : State), b.toNat ≤ 7 → exec (.rotl a b) s =
    .next { s with port := .responding (0x0#4 ++ rotlForm a b.toNat) }) ∧
  (∀ (a b : Byte) (s : State), 7 < b.toNat → exec (.rotl a b) s = .next { s with port := .responding 0x300#12 })

/-- ROTR (R62): encoding, the closed form of the result for every amount (R60), and both errors; no state is written. -/
def Obligations.RotrCommand : Prop :=
  (∀ (cw : CmdWord) (a b : Byte), decode cw = .cmd (.rotr a b) ↔
    cw &&& 0xFFFF0000#32 = 0x11000000#32 ∧ a = cw.extractLsb' 0 8 ∧ b = cw.extractLsb' 8 8) ∧
  (∀ (cw : CmdWord) (s : State), s.runsNext cw → cw.extractLsb' 24 8 = 0x11#8 → cw.extractLsb' 16 8 ≠ 0#8 →
    step s = .next { s with port := .responding 0x100#12 }) ∧
  (∀ (a b : Byte) (s : State), b.toNat ≤ 7 → exec (.rotr a b) s =
    .next { s with port := .responding (0x0#4 ++ rotrForm a b.toNat) }) ∧
  (∀ (a b : Byte) (s : State), 7 < b.toNat → exec (.rotr a b) s = .next { s with port := .responding 0x300#12 })

/-- The loops of R59 equal the closed forms of R60, and every bit of the result is the bit of the source that R60 names. -/
def Obligations.RotationClosedForms : Prop :=
  (∀ (b : Byte) (n : BitPos), rotateLeft b n = rotlForm b n.val ∧ rotateRight b n = rotrForm b n.val) ∧
  (∀ (s : State) (a n : Byte) (i : Nat), n.toNat ≤ 7 → i ≤ 7 →
    ∃ l r : Byte, answer (.rotl a n) s = some l ∧ answer (.rotr a n) s = some r ∧
      l.getLsbD i = a.getLsbD ((i + 8 - n.toNat) % 8) ∧ r.getLsbD i = a.getLsbD ((i + n.toNat) % 8))

/-- The laws of R63, of the results of the commands in any state. -/
def Obligations.RotationLaws : Prop :=
  ∀ (s : State) (a m n : Byte), m.toNat ≤ 7 → n.toNat ≤ 7 →
    ∃ l r : Byte, answer (.rotl a n) s = some l ∧ answer (.rotr a n) s = some r ∧
      answer (.rotr l n) s = some a ∧ answer (.rotl r n) s = some a ∧
      popcount l = popcount a ∧ popcount r = popcount a ∧
      (1 ≤ n.toNat → answer (.rotr a (8#8 - n)) s = some l) ∧
      (∃ x : Byte, answer (.rotl a m) s = some x ∧
        answer (.rotl x n) s = answer (.rotl a (BitVec.ofNat 8 ((m.toNat + n.toNat) % 8))) s)

/-! ### KeyScheduler -/

/-- KEYGEN (R68): encoding, the key installed and returned for every seed in 0..15 (closed form of R65), the new session,
and both errors, which leave all as it was. -/
def Obligations.KeygenCommand : Prop :=
  (∀ (cw : CmdWord) (b : Byte), decode cw = .cmd (.keygen b) ↔
    cw &&& 0xFFFF00FF#32 = 0x20000000#32 ∧ b = cw.extractLsb' 8 8) ∧
  (∀ (cw : CmdWord) (s : State), s.runsNext cw → cw.extractLsb' 24 8 = 0x20#8 →
    (cw.extractLsb' 16 8 ≠ 0#8 ∨ cw.extractLsb' 0 8 ≠ 0#8) → step s = .next { s with port := .responding 0x100#12 }) ∧
  (∀ (b : Byte) (s : State), b.toNat ≤ 15 → exec (.keygen b) s =
    .next { s with key := keyForm b, keyv := true, fb := 0xCB#8, cnt := 0#32, port := .responding (0x0#4 ++ keyForm b) }) ∧
  (∀ (b : Byte) (s : State), 15 < b.toNat → exec (.keygen b) s = .next { s with port := .responding 0x400#12 })

/-- KEYLD (R69): encoding, the byte installed and returned, the new session, the one error, and that KEYLD 0xA5 leaves what
KEYGEN 5 leaves. -/
def Obligations.KeyldCommand : Prop :=
  (∀ (cw : CmdWord) (a : Byte), decode cw = .cmd (.keyld a) ↔
    cw &&& 0xFFFFFF00#32 = 0x21000000#32 ∧ a = cw.extractLsb' 0 8) ∧
  (∀ (cw : CmdWord) (s : State), s.runsNext cw → cw.extractLsb' 24 8 = 0x21#8 →
    (cw.extractLsb' 16 8 ≠ 0#8 ∨ cw.extractLsb' 8 8 ≠ 0#8) → step s = .next { s with port := .responding 0x100#12 }) ∧
  (∀ (a : Byte) (s : State), exec (.keyld a) s =
    .next { s with key := a, keyv := true, fb := 0xCB#8, cnt := 0#32, port := .responding (0x0#4 ++ a) }) ∧
  (∀ s : State, exec (.keyld 0xA5#8) s = exec (.keygen 5#8) s)

/-- KEYCALC (R70): encoding, the key returned for every seed in 0..15, no state written, and both errors. -/
def Obligations.KeycalcCommand : Prop :=
  (∀ (cw : CmdWord) (b : Byte), decode cw = .cmd (.keycalc b) ↔
    cw &&& 0xFFFF00FF#32 = 0x22000000#32 ∧ b = cw.extractLsb' 8 8) ∧
  (∀ (cw : CmdWord) (s : State), s.runsNext cw → cw.extractLsb' 24 8 = 0x22#8 →
    (cw.extractLsb' 16 8 ≠ 0#8 ∨ cw.extractLsb' 0 8 ≠ 0#8) → step s = .next { s with port := .responding 0x100#12 }) ∧
  (∀ (b : Byte) (s : State), b.toNat ≤ 15 → exec (.keycalc b) s =
    .next { s with port := .responding (0x0#4 ++ keyForm b) }) ∧
  (∀ (b : Byte) (s : State), 15 < b.toNat → exec (.keycalc b) s = .next { s with port := .responding 0x400#12 })

/-- The key that KEYGEN installs is a bit-reversal palindrome whose low nibble is the seed, and the keys of different seeds
differ (R66). -/
def Obligations.KeysArePalindromesAndDistinct : Prop :=
  (∀ (s t : State) (b : Byte), b.toNat ≤ 15 → exec (.keygen b) s = .next t →
    t.key.reverse = t.key ∧ t.key.toNat % 16 = b.toNat ∧
      ∀ j : Nat, j ≤ 7 → t.key.getLsbD j = t.key.getLsbD (7 - j)) ∧
  (∀ (s : State) (b c : Byte), b.toNat ≤ 15 → c.toNat ≤ 15 → answer (.keycalc b) s = answer (.keycalc c) s → b = c)

/-- The complete table of computed keys (R67). -/
def Obligations.ComputedKeyTable : Prop :=
  ∀ s : State, (List.range 16).map (fun n => answer (.keycalc (BitVec.ofNat 8 n)) s) =
    [0x00#8, 0x81#8, 0x42#8, 0xC3#8, 0x24#8, 0xA5#8, 0x66#8, 0xE7#8, 0x18#8, 0x99#8, 0x5A#8, 0xDB#8, 0x3C#8, 0xBD#8,
      0x7E#8, 0xFF#8].map some

/-! ### ByteCipher -/

/-- ENCB (R76): encoding, the closed form of the result for every source byte and key (R74), no state written, and the one
error. -/
def Obligations.EncbCommand : Prop :=
  (∀ (cw : CmdWord) (a b : Byte), decode cw = .cmd (.encb a b) ↔
    cw &&& 0xFFFF0000#32 = 0x30000000#32 ∧ a = cw.extractLsb' 0 8 ∧ b = cw.extractLsb' 8 8) ∧
  (∀ (cw : CmdWord) (s : State), s.runsNext cw → cw.extractLsb' 24 8 = 0x30#8 → cw.extractLsb' 16 8 ≠ 0#8 →
    step s = .next { s with port := .responding 0x100#12 }) ∧
  (∀ (a b : Byte) (s : State), exec (.encb a b) s = .next { s with port := .responding (0x0#4 ++ encryptForm a b) })

/-- DECB (R77): encoding, the closed form of the result for every ciphertext byte and key (R74), no state written, and the
one error. -/
def Obligations.DecbCommand : Prop :=
  (∀ (cw : CmdWord) (a b : Byte), decode cw = .cmd (.decb a b) ↔
    cw &&& 0xFFFF0000#32 = 0x31000000#32 ∧ a = cw.extractLsb' 0 8 ∧ b = cw.extractLsb' 8 8) ∧
  (∀ (cw : CmdWord) (s : State), s.runsNext cw → cw.extractLsb' 24 8 = 0x31#8 → cw.extractLsb' 16 8 ≠ 0#8 →
    step s = .next { s with port := .responding 0x100#12 }) ∧
  (∀ (a b : Byte) (s : State), exec (.decb a b) s = .next { s with port := .responding (0x0#4 ++ decryptForm a b) })

/-- The loops of R72 and R73 equal the closed forms of R74, for every byte and key. -/
def Obligations.CipherClosedForms : Prop :=
  ∀ x key : Byte, encryptByte x key = encryptForm x key ∧ decryptByte x key = decryptForm x key

/-- The correctness contract of R75: DECB undoes ENCB and ENCB undoes DECB in every state, and for each key encryptByte is
a bijection of the bytes with inverse decryptByte. -/
def Obligations.CipherInverse : Prop :=
  (∀ (s : State) (x key : Byte), ∃ c p : Byte, answer (.encb x key) s = some c ∧ answer (.decb c key) s = some x ∧
    answer (.decb x key) s = some p ∧ answer (.encb p key) s = some x) ∧
  (∀ key : Byte, Function.Bijective (fun x => encryptByte x key) ∧
    Function.LeftInverse (fun c => decryptByte c key) (fun x => encryptByte x key))

/-! ### ChainEngine -/

/-- ENC (R82): encoding, the chain step with a key installed, E_NOKEY without one, and E_ILLEGAL. -/
def Obligations.EncCommand : Prop :=
  (∀ (cw : CmdWord) (a : Byte), decode cw = .cmd (.enc a) ↔
    cw &&& 0xFFFFFF00#32 = 0x40000000#32 ∧ a = cw.extractLsb' 0 8) ∧
  (∀ (cw : CmdWord) (s : State), s.runsNext cw → cw.extractLsb' 24 8 = 0x40#8 →
    (cw.extractLsb' 16 8 ≠ 0#8 ∨ cw.extractLsb' 8 8 ≠ 0#8) → step s = .next { s with port := .responding 0x100#12 }) ∧
  (∀ (a : Byte) (s : State), s.keyv = true → exec (.enc a) s =
    .next { s with fb := encryptForm (a ^^^ s.fb) s.key, cnt := BitVec.ofNat 32 ((s.cnt.toNat + 1) % 2 ^ 32),
                   port := .responding (0x0#4 ++ encryptForm (a ^^^ s.fb) s.key) }) ∧
  (∀ (a : Byte) (s : State), s.keyv = false → exec (.enc a) s = .next { s with port := .responding 0x600#12 })

/-- DEC (R83): encoding, the chain step with a key installed, E_NOKEY without one, and E_ILLEGAL. -/
def Obligations.DecCommand : Prop :=
  (∀ (cw : CmdWord) (a : Byte), decode cw = .cmd (.dec a) ↔
    cw &&& 0xFFFFFF00#32 = 0x41000000#32 ∧ a = cw.extractLsb' 0 8) ∧
  (∀ (cw : CmdWord) (s : State), s.runsNext cw → cw.extractLsb' 24 8 = 0x41#8 →
    (cw.extractLsb' 16 8 ≠ 0#8 ∨ cw.extractLsb' 8 8 ≠ 0#8) → step s = .next { s with port := .responding 0x100#12 }) ∧
  (∀ (a : Byte) (s : State), s.keyv = true → exec (.dec a) s =
    .next { s with fb := a, cnt := BitVec.ofNat 32 ((s.cnt.toNat + 1) % 2 ^ 32),
                   port := .responding (0x0#4 ++ (decryptForm a s.key ^^^ s.fb)) }) ∧
  (∀ (a : Byte) (s : State), s.keyv = false → exec (.dec a) s = .next { s with port := .responding 0x600#12 })

/-- CRST (R84): encoding, the new session with the same key, and E_ILLEGAL; with no key and the state that is reached then
(the invariant's), it changes no register. -/
def Obligations.CrstCommand : Prop :=
  (∀ cw : CmdWord, decode cw = .cmd .crst ↔ cw = 0x42000000#32) ∧
  (∀ (cw : CmdWord) (s : State), s.runsNext cw → cw.extractLsb' 24 8 = 0x42#8 → cw ≠ 0x42000000#32 →
    step s = .next { s with port := .responding 0x100#12 }) ∧
  (∀ s : State, exec .crst s = .next { s with fb := 0xCB#8, cnt := 0#32, port := .responding 0x000#12 }) ∧
  (∀ s : State, s.keyv = false → s.keylessIsReset → exec .crst s = .next { s with port := .responding 0x000#12 })

/-- KCLR (R85): encoding, the key discarded and the session ended, and E_ILLEGAL; and after it ENC and DEC raise E_NOKEY,
whatever words come between, until one of them is a KEYGEN or KEYLD that completes. -/
def Obligations.KclrCommand : Prop :=
  (∀ cw : CmdWord, decode cw = .cmd .kclr ↔ cw = 0x43000000#32) ∧
  (∀ (cw : CmdWord) (s : State), s.runsNext cw → cw.extractLsb' 24 8 = 0x43#8 → cw ≠ 0x43000000#32 →
    step s = .next { s with port := .responding 0x100#12 }) ∧
  (∀ s : State, exec .kclr s =
    .next { s with key := 0x00#8, keyv := false, fb := 0xCB#8, cnt := 0#32, port := .responding 0x000#12 }) ∧
  (∀ (s t u : State) (words : List CmdWord) (a : Byte), exec .kclr s = .next t →
    (∀ cw ∈ words, wordIs installsKey cw = false) → u = (wordRun words t).2 →
    exec (.enc a) u = .next { u with port := .responding 0x600#12 } ∧
    exec (.dec a) u = .next { u with port := .responding 0x600#12 })

/-- The architectural state after KCLR is the reset state, from every state, and KCLR answers (R115). -/
def Obligations.KclrLeavesResetState : Prop :=
  ∀ s : State, ∃ t : State, exec .kclr s = .next t ∧ State.reset.sameRegs t ∧ t.port = .responding 0x000#12 ∧
    t.outbox = s.outbox

/-- FB and CNT along a session (R86): after any words from a session start with a key, none of which is again a session
start (R81), pure commands, commands that end with an error and illegal words among them: KEY and KEYV are unchanged, CNT is
the number of chain steps modulo 2^32, and FB is the IV if there was no chain step, else the ciphertext byte of the last, the
byte DEC consumed or the byte ENC returned in its response. -/
def Obligations.SessionFeedback : Prop :=
  ∀ (words : List CmdWord) (s t : State) (rsps : List RspWord), s.keyv = true → s.fb = 0xCB#8 → s.cnt = 0#32 →
    (∀ cw ∈ words, wordIs sessionStart cw = false) → wordRun words s = (rsps, t) →
    rsps.length = words.length ∧ t.key = s.key ∧ t.keyv = true ∧
    t.cnt = BitVec.ofNat 32 (words.countP (wordIs chainStepOf)) ∧
    ((∀ cw ∈ words, wordIs chainStepOf cw = false) → t.fb = 0xCB#8) ∧
    (∀ (before after : List CmdWord) (last : CmdWord), words = before ++ last :: after →
      (∀ cw ∈ after, wordIs chainStepOf cw = false) →
      (∀ a : Byte, decode last = .cmd (.dec a) → t.fb = a) ∧
      (∀ a : Byte, decode last = .cmd (.enc a) → rsps[before.length]? = some (0x0#4 ++ t.fb)))

/-- ENCRYPT (R87): it expands to KEYLD and one ENC for each byte; run in order from any state they answer the key and then
Encrypt(plaintext, key), every one with ERR = 0; so they do with KEYGEN in place of KEYLD. -/
def Obligations.EncryptResults : Prop :=
  ∀ (key : Byte) (plaintext : List Byte) (s : State) (first : Instr),
    (first = .keyld key ∨ ∃ seed : Seed, first = .keygen (seed.setWidth 8) ∧ key = computeKey seed) →
    encryptOp key plaintext = .keyld key :: plaintext.map .enc ∧
    answers (first :: plaintext.map .enc) s = (key :: encryptMessage plaintext key).map some

/-- DECRYPT (R88): it expands to KEYLD and one DEC for each byte; run in order from any state they answer the key and then
Decrypt(ciphertext, key). -/
def Obligations.DecryptResults : Prop :=
  ∀ (key : Byte) (ciphertext : List Byte) (s : State),
    decryptOp key ciphertext = .keyld key :: ciphertext.map .dec ∧
    answers (decryptOp key ciphertext) s = (key :: decryptMessage ciphertext key).map some

/-- ENCRYPT run on the machine (R78, R87): the commands, issued in order with each response taken, return the key and then
Encrypt(plaintext, key), every response with ERR = 0, and leave FB and CNT as R86 says; from any state whose port is idle. KEYGEN may stand for KEYLD. That
each command takes three steps, and the host's lists, are the model's choice (logs 1, 2 and 9). -/
def Obligations.EncryptSession : Prop :=
  ∀ (key : Byte) (plaintext : List Byte) (s : State) (rest : List HostEvent) (first : Instr), s.port = .idle →
    (first = .keyld key ∨ ∃ seed : Seed, first = .keygen (seed.setWidth 8) ∧ key = computeKey seed) →
    s.inbox = hostScript (first :: (encryptOp key plaintext).tail) ++ rest →
    Host.Core.run Sys2Proof.core (3 * (plaintext.length + 1)) s = .next
      { s with key := key, keyv := true, fb := (encryptMessage plaintext key).getLastD 0xCB#8,
               cnt := BitVec.ofNat 32 plaintext.length, inbox := rest,
               outbox := s.outbox ++ (0x0#4 ++ key) :: (encryptMessage plaintext key).map (fun c => 0x0#4 ++ c) }

/-- DECRYPT run on the machine (R79, R88): the commands, issued in order with each response taken, return the key and then
Decrypt(ciphertext, key), and leave FB and CNT as R86 says; from any state whose port is idle. That each command takes three
steps, and the host's lists, are the model's choice (logs 1, 2 and 9). -/
def Obligations.DecryptSession : Prop :=
  ∀ (key : Byte) (ciphertext : List Byte) (s : State) (rest : List HostEvent), s.port = .idle →
    s.inbox = hostScript (decryptOp key ciphertext) ++ rest →
    Host.Core.run Sys2Proof.core (3 * (ciphertext.length + 1)) s = .next
      { s with key := key, keyv := true, fb := ciphertext.getLastD 0xCB#8,
               cnt := BitVec.ofNat 32 ciphertext.length, inbox := rest,
               outbox := s.outbox ++ (0x0#4 ++ key) :: (decryptMessage ciphertext key).map (fun p => 0x0#4 ++ p) }

/-- The round-trip law (R89), for every message and every key byte; Encrypt and Decrypt keep the length (R78, R79). -/
def Obligations.MessageRoundTrip : Prop :=
  ∀ (m : List Byte) (key : Byte), decryptMessage (encryptMessage m key) key = m ∧
    (encryptMessage m key).length = m.length ∧ (decryptMessage m key).length = m.length

/-- The feedback dependency as R90 corrects it, for a chain step at any place under one key: the ciphertext bytes agree
exactly when plaintext XOR feedback agrees. -/
def Obligations.FeedbackDependency : Prop :=
  (∀ (s t : State) (a b : Byte), s.keyv = true → t.keyv = true → s.key = t.key →
    ((answer (.enc a) s).isSome = true ∧ (answer (.enc a) s = answer (.enc b) t ↔ a ^^^ s.fb = b ^^^ t.fb))) ∧
  (∀ (m : List Byte) (key : Byte) (i : Nat), i + 1 < m.length →
    (encryptMessage m key).getD (i + 1) 0#8 =
      encryptForm (m.getD (i + 1) 0#8 ^^^ (encryptMessage m key).getD i 0#8) key)

/-- Decryption through DECB, in any order and any state (R91): byte i of the plaintext is DECB of ciphertext byte i XOR the
ciphertext byte before it, or the IV. -/
def Obligations.DecbRecoversPlaintext : Prop :=
  ∀ (s : State) (c : List Byte) (key : Byte) (i : Nat), i < c.length →
    ∃ r : Byte, answer (.decb (c.getD i 0#8) key) s = some r ∧
      (decryptMessage c key)[i]? = some (r ^^^ if i = 0 then 0xCB#8 else c.getD (i - 1) 0#8)

/-- ENC and DEC compute the same results whatever CNT holds (R22). -/
def Obligations.ChainIgnoresCounter : Prop :=
  ∀ (i : Instr) (s t : State) (n : Counter), chainStepOf i = true → exec i s = .next t →
    exec i { s with cnt := n } = .next { t with cnt := if s.keyv then n + 1#32 else n }

/-! ### Control -/

/-- NOP (R93): encoding, the response, no state written, and E_ILLEGAL for any other word with its opcode. -/
def Obligations.NopCommand : Prop :=
  (∀ cw : CmdWord, decode cw = .cmd .nop ↔ cw = 0x00000000#32) ∧
  (∀ (cw : CmdWord) (s : State), s.runsNext cw → cw.extractLsb' 24 8 = 0x00#8 → cw ≠ 0#32 →
    step s = .next { s with port := .responding 0x100#12 }) ∧
  (∀ s : State, exec .nop s = .next { s with port := .responding 0x000#12 })

/-- RDREG (R94): encoding, the value of each of the eight registers, no state written, and both errors. -/
def Obligations.RdregCommand : Prop :=
  (∀ (cw : CmdWord) (b : Byte), decode cw = .cmd (.rdreg b) ↔
    cw &&& 0xFFFF00FF#32 = 0x50000000#32 ∧ b = cw.extractLsb' 8 8) ∧
  (∀ (cw : CmdWord) (s : State), s.runsNext cw → cw.extractLsb' 24 8 = 0x50#8 →
    (cw.extractLsb' 16 8 ≠ 0#8 ∨ cw.extractLsb' 0 8 ≠ 0#8) → step s = .next { s with port := .responding 0x100#12 }) ∧
  (∀ s : State,
    exec (.rdreg 0#8) s = .next { s with port := .responding (0x0#4 ++ s.key) } ∧
    exec (.rdreg 1#8) s = .next { s with port := .responding (0x0#4 ++ s.fb) } ∧
    exec (.rdreg 2#8) s = .next { s with port := .responding (0x0#4 ++ s.cnt.extractLsb' 0 8) } ∧
    exec (.rdreg 3#8) s = .next { s with port := .responding (0x0#4 ++ s.cnt.extractLsb' 8 8) } ∧
    exec (.rdreg 4#8) s = .next { s with port := .responding (0x0#4 ++ s.cnt.extractLsb' 16 8) } ∧
    exec (.rdreg 5#8) s = .next { s with port := .responding (0x0#4 ++ s.cnt.extractLsb' 24 8) } ∧
    exec (.rdreg 6#8) s = .next { s with port := .responding (if s.keyv then 0x001#12 else 0x000#12) } ∧
    exec (.rdreg 7#8) s = .next { s with port := .responding 0x0CB#12 }) ∧
  (∀ (b : Byte) (s : State), 7 < b.toNat → exec (.rdreg b) s = .next { s with port := .responding 0x500#12 })

/-! ### Command errors -/

/-- The table of R98: in every state every command answers, with the one code its table gives it, or 0 when it completes;
it completes exactly when its operand is in range and a chain step has a key. -/
def Obligations.ErrorTable : Prop :=
  ∀ (i : Instr) (s : State), ∃ (t : State) (r : RspWord), exec i s = .next t ∧ t.port = .responding r ∧
    errOf r = (match errorOf i s with | some e => e.code | none => 0x0#4) ∧
    (errOf r = 0x0#4 ↔ runsClean i s = true)

/-- Errors are precise (R108): when the command word that completes is answered with ERR ≠ 0, the code is one of R98's, RES is
0x00, nothing but the response has changed, and whatever command comes next runs as it would have run without the error. -/
def Obligations.ErrorsLeaveNoTrace : Prop :=
  ∀ (s t : State) (cw : CmdWord) (r : RspWord), s.runsNext cw → step s = .next t → t.port = .responding r →
    errOf r ≠ 0x0#4 → (∃ e : ErrCode, errOf r = e.code) ∧ resOf r = 0x00#8 ∧ t = { s with port := .responding r } ∧
      ∀ i : Instr, exec i t = exec i s

/-- No host ever sees a reserved code (R105): whatever the host does from reset, no response taken or held has an ERR of 7
or more. -/
def Obligations.NoReservedCodeIsReported : Prop :=
  ∀ (events : List HostEvent) (n : Nat) (t : State),
    Host.Core.run Sys2Proof.core n { State.reset with inbox := events } = .next t →
    (∀ r ∈ t.outbox, (errOf r).toNat ≤ 6) ∧ (∀ r, t.port = .responding r → (errOf r).toNat ≤ 6)

/-! ### Whole-machine rules -/

/-- The table of side effects (R38): the ten pure commands change no register and answer the same when repeated; KEYGEN,
KEYLD, CRST and KCLR are idempotent; ENC, DEC and CRST keep the key; no command touches the host's side. -/
def Obligations.SideEffects : Prop :=
  ∀ (i : Instr) (s t : State), exec i s = .next t →
    (pureCommand i = true → s.sameRegs t) ∧
    (chainStepOf i = false → exec i t = .next t) ∧
    ((chainStepOf i = true ∨ i = .crst) → t.key = s.key ∧ t.keyv = s.keyv) ∧
    t.inbox = s.inbox ∧ t.outbox = s.outbox

/-- The commands that touch no state read none either, but for RDREG (R38, R76, R77): their responses are the same in any two
states. -/
def Obligations.StatelessCommands : Prop :=
  ∀ (i : Instr) (s t : State), pureCommand i = true → (∀ b : Byte, i ≠ .rdreg b) →
    ∃ s' t' : State, exec i s = .next s' ∧ exec i t = .next t' ∧ s'.port = t'.port

/-- A command reads nothing but the architectural state and its word (R95): in two states that agree on KEY, KEYV, FB and CNT
it leaves the same architectural state and the same response. -/
def Obligations.StepReadsOnlyRegistersAndWord : Prop :=
  ∀ (s t : State) (cw : CmdWord), s.sameRegs t → s.runsNext cw → t.runsNext cw →
    ∃ s' t' : State, step s = .next s' ∧ step t = .next t' ∧ s'.sameRegs t' ∧ s'.port = t'.port

/-- KEY changes only at a session start (R18, R81): a step that changes KEY leaves FB = IV and CNT = 0. -/
def Obligations.KeyChangesOnlyAtSessionStart : Prop :=
  ∀ s t : State, step s = .next t → t.key ≠ s.key → t.fb = 0xCB#8 ∧ t.cnt = 0#32

/-- Only KEYGEN and KEYLD set KEYV (R19, R116): a step after which a key is installed where none was completes a word that
decodes to one of the two and completes without error; and a command after which it is so is one of the two. -/
def Obligations.OnlyKeyCommandsInstall : Prop :=
  (∀ s t : State, step s = .next t → s.keyv = false → t.keyv = true →
    ∃ (cw : CmdWord) (i : Instr), s.runsNext cw ∧ decode cw = .cmd i ∧ installsKey i = true ∧
      t.port = .responding (0x0#4 ++ t.key)) ∧
  (∀ (i : Instr) (s t : State), exec i s = .next t → s.keyv = false → t.keyv = true →
    (∃ b : Byte, i = .keygen b) ∨ (∃ a : Byte, i = .keyld a))

/-- A pure command between two others changes no result (R118): what a command does after it is what it does without it. -/
def Obligations.PureCommandsMayBeInterleaved : Prop :=
  ∀ (i j : Instr) (s u : State), pureCommand i = true → exec i s = .next u →
    ∃ t : State, exec j s = .next t ∧ exec j u = .next t

/-! ### The interface and the run -/

/-- A step runs the decoded command (R95): when the command in flight decodes to `i` and no reset comes first, the step is
exec of `i` at that same state, with nothing around it. -/
def Obligations.StepRunsDecodedCommand : Prop :=
  ∀ (s : State) (cw : CmdWord) (i : Instr), s.runsNext cw → decode cw = .cmd i → i.wellFormed = true → step s = exec i s

/-- The CORE never stops (R96): every step answers a next state; with no command in flight and nothing from the host, it
waits with its state unchanged. -/
def Obligations.CoreNeverStops : Prop :=
  (∀ s : State, ∃ t : State, step s = .next t) ∧
  (∀ s : State, s.port = .idle → s.inbox = [] → step s = .next s)

/-- Transfers (R27, U9): a command is accepted when none is in flight; while a response is held, an offered command and a
host that does nothing both leave all as it was; a take while nothing is in flight does so too; an idle moment changes nothing
but the host's list; and a held response is delivered when the host takes it. One transfer a step, and the host's lists, are
the model's choice (logs 1, 2, 4 and 9). -/
def Obligations.CommandsAndResponsesTransfer : Prop :=
  (∀ (s : State) (cw : CmdWord) (rest : List HostEvent), s.inbox = .command cw :: rest → s.port = .idle →
    step s = .next { s with port := .accepted cw, inbox := rest }) ∧
  (∀ (s : State) (cw : CmdWord) (rest : List HostEvent) (r : RspWord), s.inbox = .command cw :: rest →
    s.port = .responding r → step s = .next s) ∧
  (∀ (s : State) (rest : List HostEvent) (r : RspWord), s.inbox = .take :: rest → s.port = .responding r →
    step s = .next { s with port := .idle, inbox := rest, outbox := s.outbox ++ [r] }) ∧
  (∀ (s : State) (r : RspWord), s.inbox = [] → s.port = .responding r → step s = .next s) ∧
  (∀ (s : State) (rest : List HostEvent), s.inbox = .take :: rest → s.port = .idle → step s = .next s) ∧
  (∀ (s : State) (rest : List HostEvent), s.inbox = .idle :: rest → (∀ cw : CmdWord, s.port ≠ .accepted cw) →
    step s = .next { s with inbox := rest })

/-- One response for each command, in order (R27): a host that transfers any words, legal or not, and takes each response
before the next, takes exactly one response a word, and these are, in order, what the words answer when each is run on the
state its predecessor left, which is also the state at the end; and the port is idle again. That each word takes three steps,
and the host's lists, are the model's choice (logs 1, 2 and 9). -/
def Obligations.OneResponsePerCommand : Prop :=
  ∀ (words : List CmdWord) (s u : State) (rest : List HostEvent) (answers : List RspWord), s.port = .idle →
    s.inbox = wordScript words ++ rest → wordRun words s = (answers, u) →
    answers.length = words.length ∧
    Host.Core.run Sys2Proof.core (3 * words.length) s =
      .next { u with port := .idle, inbox := rest, outbox := s.outbox ++ answers }

/-- Reset (R113): every register takes its reset value, whatever was in flight, with no response; a command in flight is
discarded without its effect; and after reset the CORE accepts the host's next command. That a reset next in the host's list
is taken before the command in flight completes is the model's choice (log 4), and so are the host's lists, the outbox that
reset keeps, and one transfer a step (logs 1, 2 and 9). -/
def Obligations.ResetEvent : Prop :=
  (∀ (s : State) (rest : List HostEvent), s.inbox = .reset :: rest →
    ∃ t : State, step s = .next t ∧ t.key = 0x00#8 ∧ t.keyv = false ∧ t.fb = 0xCB#8 ∧ t.cnt = 0#32 ∧ t.inbox = rest ∧
      t.outbox = s.outbox ∧ ((∀ r : RspWord, s.port ≠ .responding r) → t.port = .idle)) ∧
  (∀ (s : State) (cw : CmdWord) (rest : List HostEvent), s.inbox = .reset :: .command cw :: rest →
    (∀ r : RspWord, s.port ≠ .responding r) →
    Host.Core.run Sys2Proof.core 2 s =
      .next { State.reset with port := .accepted cw, inbox := rest, outbox := s.outbox })

/-- Reset discards a response that is still held. The model's choice, DEDUCED from U9 and R28 (log 3). -/
def Obligations.ResetDiscardsHeldResponse : Prop :=
  ∀ (s : State) (rest : List HostEvent) (r : RspWord), s.inbox = .reset :: rest → s.port = .responding r →
    step s = .next { s with key := 0x00#8, keyv := false, fb := 0xCB#8, cnt := 0#32, port := .idle, inbox := rest }

/-- The reset values of the architectural state (R18 to R22, R114). -/
def Obligations.ResetValues : Prop :=
  State.reset.key = 0x00#8 ∧ State.reset.keyv = false ∧ State.reset.fb = 0xCB#8 ∧ State.reset.cnt = 0#32

/-! ### The invariant -/

/-- The invariant holds at reset: with no key the state is the reset state, and no reserved code is held or reported. -/
def Obligations.InvariantAtReset : Prop := State.reset.Inv

/-- Every step keeps the invariant, from every state that meets it, whatever the host does next (R84, R105). -/
def Obligations.InvariantKept : Prop := ∀ s t : State, s.Inv → step s = .next t → t.Inv

/-! ### The assembler -/

/-- Operands of the assembler (R52): every command is assembled from its used operands unchanged, also one that will be
rejected when it runs; an operand below 0 or above 255 is refused; an operand for an unused field, or a missing one, is
refused. -/
def Obligations.AssemblerOperands : Prop :=
  (∀ i : Instr, asmCommand i.mnemonic
      ((if i.mnemonic.usesA then [(i.fieldA.toNat : Int)] else []) ++
        (if i.mnemonic.usesB then [(i.fieldB.toNat : Int)] else [])) = .ok i) ∧
  (∀ (m : Mnemonic) (operands : List Int), (∃ v ∈ operands, v < 0 ∨ 255 < v) →
    ∃ e : AsmError, asmCommand m operands = .error e) ∧
  (∀ (m : Mnemonic) (operands : List Int), operands.length ≠ m.usesA.toNat + m.usesB.toNat →
    asmCommand m operands = .error .operandCount)

/-- Lines of R51, R52 and R53 assemble to the words the spec gives them: mnemonics in any case, numerals of each base, a
character, a selector name, the error path of R52, and a pseudo-operation. That a blank stands after a mnemonic is the
model's choice (log 10). -/
def Obligations.SampleLinesAssemble : Prop :=
  assemble "GETBIT 0x8A, 3".toList = .ok [0x0100038A#32] ∧ assemble "nop".toList = .ok [0x00000000#32] ∧
  assemble "ROTL 1, 9".toList = .ok [0x10000901#32] ∧ assemble "Enc 'A'".toList = .ok [0x40000041#32] ∧
  assemble "SETBIT 0b10001010, 0".toList = .ok [0x0200008A#32] ∧ assemble "RDREG FB".toList = .ok [0x50000100#32] ∧
  assemble "COMPUTEKEY 5".toList = .ok [0x22000500#32] ∧
  assemble "ENCRYPT 0x99, ['H', 'i']".toList = .ok [0x21000099#32, 0x40000048#32, 0x40000069#32] ∧
  assemble "KEYLD 256".toList = .error .operandRange ∧ assemble "CRST 0".toList = .error .operandCount
end

