-- ==== Sys2Proof/Laws/State.lean ====
section
/-! SUPPORT. One lemma per field of State per update of Machine/Ops.lean and Machine/Interface.lean, so that no proof
unfolds a record update. -/

namespace Sys2Proof.Machine

variable (s : State)

/-! ### respond: a command that completes writes its response -/

@[simp] theorem State.respond_key (res : Byte) : (s.respond res).key = s.key := rfl
@[simp] theorem State.respond_keyv (res : Byte) : (s.respond res).keyv = s.keyv := rfl
@[simp] theorem State.respond_fb (res : Byte) : (s.respond res).fb = s.fb := rfl
@[simp] theorem State.respond_cnt (res : Byte) : (s.respond res).cnt = s.cnt := rfl
@[simp] theorem State.respond_port (res : Byte) : (s.respond res).port = .responding (okRsp res) := rfl
@[simp] theorem State.respond_inbox (res : Byte) : (s.respond res).inbox = s.inbox := rfl
@[simp] theorem State.respond_outbox (res : Byte) : (s.respond res).outbox = s.outbox := rfl

/-! ### raiseError: a command error writes its response and nothing else (R108) -/

@[simp] theorem State.raiseError_key (e : ErrCode) : (s.raiseError e).key = s.key := rfl
@[simp] theorem State.raiseError_keyv (e : ErrCode) : (s.raiseError e).keyv = s.keyv := rfl
@[simp] theorem State.raiseError_fb (e : ErrCode) : (s.raiseError e).fb = s.fb := rfl
@[simp] theorem State.raiseError_cnt (e : ErrCode) : (s.raiseError e).cnt = s.cnt := rfl
@[simp] theorem State.raiseError_port (e : ErrCode) : (s.raiseError e).port = .responding (errRsp e) := rfl
@[simp] theorem State.raiseError_inbox (e : ErrCode) : (s.raiseError e).inbox = s.inbox := rfl
@[simp] theorem State.raiseError_outbox (e : ErrCode) : (s.raiseError e).outbox = s.outbox := rfl

/-! ### startSession: a session start (R81) -/

@[simp] theorem State.startSession_key : s.startSession.key = s.key := rfl
@[simp] theorem State.startSession_keyv : s.startSession.keyv = s.keyv := rfl
@[simp] theorem State.startSession_fb : s.startSession.fb = Config.iv := rfl
@[simp] theorem State.startSession_cnt : s.startSession.cnt = 0#32 := rfl
@[simp] theorem State.startSession_port : s.startSession.port = s.port := rfl
@[simp] theorem State.startSession_inbox : s.startSession.inbox = s.inbox := rfl
@[simp] theorem State.startSession_outbox : s.startSession.outbox = s.outbox := rfl

/-! ### installKey: a key write (R68, R69) -/

@[simp] theorem State.installKey_key (k : Byte) : (s.installKey k).key = k := rfl
@[simp] theorem State.installKey_keyv (k : Byte) : (s.installKey k).keyv = true := rfl
@[simp] theorem State.installKey_fb (k : Byte) : (s.installKey k).fb = Config.iv := rfl
@[simp] theorem State.installKey_cnt (k : Byte) : (s.installKey k).cnt = 0#32 := rfl
@[simp] theorem State.installKey_port (k : Byte) : (s.installKey k).port = s.port := rfl
@[simp] theorem State.installKey_inbox (k : Byte) : (s.installKey k).inbox = s.inbox := rfl
@[simp] theorem State.installKey_outbox (k : Byte) : (s.installKey k).outbox = s.outbox := rfl

/-! ### discardKey: the key discarded (R85) -/

@[simp] theorem State.discardKey_key : s.discardKey.key = 0x00#8 := rfl
@[simp] theorem State.discardKey_keyv : s.discardKey.keyv = false := rfl
@[simp] theorem State.discardKey_fb : s.discardKey.fb = Config.iv := rfl
@[simp] theorem State.discardKey_cnt : s.discardKey.cnt = 0#32 := rfl
@[simp] theorem State.discardKey_port : s.discardKey.port = s.port := rfl
@[simp] theorem State.discardKey_inbox : s.discardKey.inbox = s.inbox := rfl
@[simp] theorem State.discardKey_outbox : s.discardKey.outbox = s.outbox := rfl

/-! ### advanceChain: a chain step (R82, R83) -/

@[simp] theorem State.advanceChain_key (c : Byte) : (s.advanceChain c).key = s.key := rfl
@[simp] theorem State.advanceChain_keyv (c : Byte) : (s.advanceChain c).keyv = s.keyv := rfl
@[simp] theorem State.advanceChain_fb (c : Byte) : (s.advanceChain c).fb = c := rfl
@[simp] theorem State.advanceChain_cnt (c : Byte) : (s.advanceChain c).cnt = s.cnt + 1#32 := rfl
@[simp] theorem State.advanceChain_port (c : Byte) : (s.advanceChain c).port = s.port := rfl
@[simp] theorem State.advanceChain_inbox (c : Byte) : (s.advanceChain c).inbox = s.inbox := rfl
@[simp] theorem State.advanceChain_outbox (c : Byte) : (s.advanceChain c).outbox = s.outbox := rfl

/-! ### takeReset: reset (R113) -/

@[simp] theorem State.takeReset_key : s.takeReset.key = 0x00#8 := rfl
@[simp] theorem State.takeReset_keyv : s.takeReset.keyv = false := rfl
@[simp] theorem State.takeReset_fb : s.takeReset.fb = Config.iv := rfl
@[simp] theorem State.takeReset_cnt : s.takeReset.cnt = 0#32 := rfl
@[simp] theorem State.takeReset_port : s.takeReset.port = .idle := rfl
@[simp] theorem State.takeReset_inbox : s.takeReset.inbox = s.inbox := rfl
@[simp] theorem State.takeReset_outbox : s.takeReset.outbox = s.outbox := rfl

/-! ### acceptCommand: a command accepted (R27) -/

@[simp] theorem State.acceptCommand_key (cw : CmdWord) : (s.acceptCommand cw).key = s.key := rfl
@[simp] theorem State.acceptCommand_keyv (cw : CmdWord) : (s.acceptCommand cw).keyv = s.keyv := rfl
@[simp] theorem State.acceptCommand_fb (cw : CmdWord) : (s.acceptCommand cw).fb = s.fb := rfl
@[simp] theorem State.acceptCommand_cnt (cw : CmdWord) : (s.acceptCommand cw).cnt = s.cnt := rfl
@[simp] theorem State.acceptCommand_port (cw : CmdWord) : (s.acceptCommand cw).port = .accepted cw := rfl
@[simp] theorem State.acceptCommand_inbox (cw : CmdWord) : (s.acceptCommand cw).inbox = s.inbox := rfl
@[simp] theorem State.acceptCommand_outbox (cw : CmdWord) : (s.acceptCommand cw).outbox = s.outbox := rfl

/-! ### deliver: a response delivered (R27) -/

@[simp] theorem State.deliver_key (r : RspWord) : (s.deliver r).key = s.key := rfl
@[simp] theorem State.deliver_keyv (r : RspWord) : (s.deliver r).keyv = s.keyv := rfl
@[simp] theorem State.deliver_fb (r : RspWord) : (s.deliver r).fb = s.fb := rfl
@[simp] theorem State.deliver_cnt (r : RspWord) : (s.deliver r).cnt = s.cnt := rfl
@[simp] theorem State.deliver_port (r : RspWord) : (s.deliver r).port = .idle := rfl
@[simp] theorem State.deliver_inbox (r : RspWord) : (s.deliver r).inbox = s.inbox := rfl
@[simp] theorem State.deliver_outbox (r : RspWord) : (s.deliver r).outbox = s.outbox ++ [r] := rfl

/-! ### consume: a host event has happened -/

@[simp] theorem State.consume_key : s.consume.key = s.key := rfl
@[simp] theorem State.consume_keyv : s.consume.keyv = s.keyv := rfl
@[simp] theorem State.consume_fb : s.consume.fb = s.fb := rfl
@[simp] theorem State.consume_cnt : s.consume.cnt = s.cnt := rfl
@[simp] theorem State.consume_port : s.consume.port = s.port := rfl
@[simp] theorem State.consume_inbox : s.consume.inbox = s.inbox.tail := rfl
@[simp] theorem State.consume_outbox : s.consume.outbox = s.outbox := rfl

/-! ### placeCommand: a command placed for the next step -/

@[simp] theorem State.placeCommand_key (cw : CmdWord) : (s.placeCommand cw).key = s.key := rfl
@[simp] theorem State.placeCommand_keyv (cw : CmdWord) : (s.placeCommand cw).keyv = s.keyv := rfl
@[simp] theorem State.placeCommand_fb (cw : CmdWord) : (s.placeCommand cw).fb = s.fb := rfl
@[simp] theorem State.placeCommand_cnt (cw : CmdWord) : (s.placeCommand cw).cnt = s.cnt := rfl
@[simp] theorem State.placeCommand_port (cw : CmdWord) : (s.placeCommand cw).port = .accepted cw := rfl
@[simp] theorem State.placeCommand_inbox (cw : CmdWord) : (s.placeCommand cw).inbox = s.inbox.dropWhile (· == HostEvent.reset) := rfl
@[simp] theorem State.placeCommand_outbox (cw : CmdWord) : (s.placeCommand cw).outbox = s.outbox := rfl

end Sys2Proof.Machine
end

