-- ==== Sys2Proof/Laws/Ops.lean ====
section
/-! SUPPORT. One lemma for each shared operation of Machine/Ops.lean, Flags.lean and Operands.lean that says what it can
do. -/

namespace Sys2Proof.Machine

/-! ### Bits -/

@[simp] theorem getBit_eq (b : Byte) (pos : BitPos) : getBit b pos = b.getLsbD pos.val := rfl

/-- setBit forces its bit and keeps every other (R54). -/
theorem setBit_getLsbD (b : Byte) (pos : BitPos) (j : Nat) :
    (setBit b pos).getLsbD j = (b.getLsbD j || decide (j = pos.val)) := by
  have := pos.isLt
  by_cases h : j = pos.val
  · subst h; simp [setBit, shl8, this]
  · rcases Nat.lt_or_gt_of_ne h with h' | h'
    · simp [setBit, shl8, h, Nat.not_le.2 h']
    · simp [setBit, shl8, h, show j - pos.val ≠ 0 by omega]

/-- clearBit clears its bit and keeps every other (R54). -/
theorem clearBit_getLsbD (b : Byte) (pos : BitPos) (j : Nat) :
    (clearBit b pos).getLsbD j = (b.getLsbD j && !decide (j = pos.val)) := by
  have := pos.isLt
  by_cases hj : j < 8
  · by_cases h : j = pos.val
    · subst h; simp [clearBit, shl8, this]
    · rcases Nat.lt_or_gt_of_ne h with h' | h'
      · simp only [clearBit, shl8, BitVec.getLsbD_and, BitVec.getLsbD_not, BitVec.getLsbD_shiftLeft]
        simp [h, hj, h']
      · simp [clearBit, shl8, h, hj, show j - pos.val ≠ 0 by omega]
  · have hb : b.getLsbD j = false := BitVec.getLsbD_of_ge b j (by omega)
    simp [clearBit, hb]

/-- The loop sets the destination of each position whose test holds, and no other bit (R59, R64, R72, R73). -/
theorem setWhere_getLsbD (at_ : List BitPos) (test : BitPos → Bool) (dest : BitPos → BitPos) (start : Byte) (j : Nat) :
    (setWhere start at_ test dest).getLsbD j =
      (start.getLsbD j || at_.any fun k => test k && decide (j = (dest k).val)) := by
  induction at_ generalizing start with
  | nil => simp [setWhere]
  | cons k ks ih =>
    have step : setWhere start (k :: ks) test dest = setWhere (if test k then setBit start (dest k) else start) ks test dest :=
      rfl
    rw [step, ih]
    cases h : test k <;> simp [h, setBit_getLsbD, Bool.or_assoc]

/-! ### Response words -/

@[simp] theorem errOf_mkRsp (e : BitVec 4) (res : Byte) : errOf (mkRsp e res) = e :=
  BitVec.extractLsb'_append_eq_left (w := 4) (w' := 8)

@[simp] theorem resOf_mkRsp (e : BitVec 4) (res : Byte) : resOf (mkRsp e res) = res :=
  BitVec.extractLsb'_append_eq_right (w := 4) (w' := 8)

@[simp] theorem errOf_okRsp (res : Byte) : errOf (okRsp res) = 0x0#4 := errOf_mkRsp _ _
@[simp] theorem resOf_okRsp (res : Byte) : resOf (okRsp res) = res := resOf_mkRsp _ _
@[simp] theorem errOf_errRsp (e : ErrCode) : errOf (errRsp e) = e.code := errOf_mkRsp _ _
@[simp] theorem resOf_errRsp (e : ErrCode) : resOf (errRsp e) = 0x00#8 := resOf_mkRsp _ _

/-- Every error code is one of 1 to 6 (R98). -/
theorem code_range (e : ErrCode) : e.code ≠ 0x0#4 ∧ e.code.toNat ≤ 6 := by
  cases e <;> decide

/-! ### Operand checks -/

theorem index8_of_le {b : Byte} (h : b.toNat ≤ 7) : index8 b = some ⟨b.toNat, by omega⟩ := by
  simp [index8, show b.toNat < 8 by omega]

theorem index8_of_gt {b : Byte} (h : 7 < b.toNat) : index8 b = none := by
  simp [index8, show ¬ b.toNat < 8 by omega]

theorem seedOperand_of_le {b : Byte} (h : b.toNat ≤ 15) : seedOperand b = some (b.setWidth 4) := by
  simp [seedOperand, h]

theorem seedOperand_of_gt {b : Byte} (h : 15 < b.toNat) : seedOperand b = none := by
  simp [seedOperand, show ¬ b.toNat ≤ 15 by omega]

@[simp] theorem withOperand_some {α : Type} (s : State) (v : α) (e : ErrCode) (run : α → State) :
    s.withOperand (some v) e run = run v := rfl

@[simp] theorem withOperand_none {α : Type} (s : State) (e : ErrCode) (run : α → State) :
    s.withOperand none e run = s.raiseError e := rfl

/-- A command on a checked operand runs on the operand, or raises its error (R108). -/
theorem withOperand_cases {α : Type} (s : State) (operand : Option α) (e : ErrCode) (run : α → State) :
    (∃ v, operand = some v ∧ s.withOperand operand e run = run v) ∨
    (operand = none ∧ s.withOperand operand e run = s.raiseError e) := by
  cases operand with
  | some v => exact .inl ⟨v, rfl, rfl⟩
  | none => exact .inr ⟨rfl, rfl⟩

/-- A chain step runs under the session key, or raises E_NOKEY (R104). -/
theorem withKey_cases (s : State) (run : Byte → State) :
    (s.keyv = true ∧ s.withKey run = run s.key) ∨ (s.keyv = false ∧ s.withKey run = s.raiseError .nokey) := by
  cases h : s.keyv <;> simp [State.withKey, h]

end Sys2Proof.Machine
end

