-- ==== Sys2Proof/Laws/Word.lean ====
section
/-! SUPPORT. Lemmas about command words: a word is its four fields, what a row of R47's table tests, and what decode answers,
said once in terms of the fields. -/

namespace Sys2Proof

/-! ### A word is its fields -/

/-- Two words with the same fields are the same word (R43). -/
theorem word_ext {x y : CmdWord} (ho : opcOf x = opcOf y) (hr : rsvOf x = rsvOf y) (hb : opB x = opB y)
    (ha : opA x = opA y) : x = y := by
  have field {lo : Nat} (h : x.extractLsb' lo 8 = y.extractLsb' lo 8) (i : Nat) (hl : lo ≤ i) (hu : i < lo + 8) :
      x.getLsbD i = y.getLsbD i := by
    have := congrArg (fun b : Byte => b.getLsbD (i - lo)) h
    simpa [BitVec.getLsbD_extractLsb', show i - lo < 8 by omega, Nat.add_sub_cancel' hl] using this
  refine BitVec.eq_of_getLsbD_eq fun i hi => ?_
  rcases (by omega : i < 8 ∨ (8 ≤ i ∧ i < 16) ∨ (16 ≤ i ∧ i < 24) ∨ 24 ≤ i) with h | h | h | h
  · exact field ha i (by omega) (by omega)
  · exact field hb i (by omega) (by omega)
  · exact field hr i (by omega) (by omega)
  · exact field ho i (by omega) (by omega)

@[simp] theorem opA_mkWord (o b a : Byte) : opA (mkWord o b a) = a :=
  BitVec.extractLsb'_append_eq_right (w := 24) (w' := 8) (a := o ++ 0#8 ++ b) (b := a)

@[simp] theorem opB_mkWord (o b a : Byte) : opB (mkWord o b a) = b :=
  (BitVec.extractLsb'_append_eq_of_le (v := 24) (w := 8) (xhi := o ++ 0#8 ++ b) (xlo := a) (by decide)).trans
    (BitVec.extractLsb'_append_eq_right (w := 16) (w' := 8))

@[simp] theorem rsvOf_mkWord (o b a : Byte) : rsvOf (mkWord o b a) = 0#8 :=
  (BitVec.extractLsb'_append_eq_of_le (v := 24) (w := 8) (xhi := o ++ 0#8 ++ b) (xlo := a) (by decide)).trans
    ((BitVec.extractLsb'_append_eq_of_le (v := 16) (w := 8) (xhi := o ++ 0#8) (xlo := b) (by decide)).trans
      (BitVec.extractLsb'_append_eq_right (w := 8) (w' := 8)))

@[simp] theorem opcOf_mkWord (o b a : Byte) : opcOf (mkWord o b a) = o :=
  (BitVec.extractLsb'_append_eq_of_le (v := 24) (w := 8) (xhi := o ++ 0#8 ++ b) (xlo := a) (by decide)).trans
    ((BitVec.extractLsb'_append_eq_of_le (v := 16) (w := 8) (xhi := o ++ 0#8) (xlo := b) (by decide)).trans
      (BitVec.extractLsb'_append_eq_left (w := 8) (w' := 8)))

theorem opcOf_and (x y : CmdWord) : opcOf (x &&& y) = opcOf x &&& opcOf y := BitVec.extractLsb'_and
theorem rsvOf_and (x y : CmdWord) : rsvOf (x &&& y) = rsvOf x &&& rsvOf y := BitVec.extractLsb'_and
theorem opB_and (x y : CmdWord) : opB (x &&& y) = opB x &&& opB y := BitVec.extractLsb'_and
theorem opA_and (x y : CmdWord) : opA (x &&& y) = opA x &&& opA y := BitVec.extractLsb'_and

/-- A masked comparison of words, field by field. -/
theorem masked_eq_iff (cw mask pattern : CmdWord) : cw &&& mask = pattern ↔
    opcOf cw &&& opcOf mask = opcOf pattern ∧ rsvOf cw &&& rsvOf mask = rsvOf pattern ∧
    opB cw &&& opB mask = opB pattern ∧ opA cw &&& opA mask = opA pattern := by
  refine ⟨fun h => ?_, fun ⟨ho, hr, hb, ha⟩ => word_ext ?_ ?_ ?_ ?_⟩
  · rw [← h]
    simp only [opcOf_and, rsvOf_and, opB_and, opA_and, and_self]
  all_goals simpa only [opcOf_and, rsvOf_and, opB_and, opA_and]

/-! ### What the table's rows test -/

/-- The fields of a row's match and mask (R46, R47): the opcode and RSV are tested whole, an operand field only when the
command does not use it, and then against 0x00. -/
theorem row_fields : ∀ r ∈ opRows,
    (opcOf r.mask = 0xFF#8 ∧ opcOf r.pattern = r.mnemonic.opcode) ∧ (rsvOf r.mask = 0xFF#8 ∧ rsvOf r.pattern = 0#8) ∧
    (opB r.mask = (if r.mnemonic.usesB then 0x00#8 else 0xFF#8) ∧ opB r.pattern = 0#8) ∧
    (opA r.mask = (if r.mnemonic.usesA then 0x00#8 else 0xFF#8) ∧ opA r.pattern = 0#8) := by
  decide

/-- An operand field passes a test that is made only when the field is unused. -/
theorem unused_field_test (used : Bool) (b : Byte) :
    b &&& (if used then 0x00#8 else 0xFF#8) = 0#8 ↔ used = true ∨ b = 0#8 := by
  cases used
  · simpa using congrArg (· = 0#8) (BitVec.and_allOnes (x := b))
  · simp

/-- A row of R47's table tests the fields as R46 says: the opcode, RSV = 0x00, and 0x00 in each unused operand field. -/
theorem row_admits_iff (cw : CmdWord) {r : OpRow} (h : r ∈ opRows) : r.admits cw = true ↔
    opcOf cw = r.mnemonic.opcode ∧ rsvOf cw = 0#8 ∧ (r.mnemonic.usesB = true ∨ opB cw = 0#8) ∧
    (r.mnemonic.usesA = true ∨ opA cw = 0#8) := by
  have whole (b : Byte) : b &&& 0xFF#8 = b := BitVec.and_allOnes
  obtain ⟨⟨hom, hop⟩, ⟨hrm, hrp⟩, ⟨hbm, hbp⟩, ham, hap⟩ := row_fields r h
  rw [OpRow.admits, beq_iff_eq, masked_eq_iff, hom, hop, hrm, hrp, hbm, hbp, ham, hap, whole, whole, unused_field_test,
    unused_field_test]

/-- Every mnemonic has a row. -/
theorem row_of_mnemonic (m : Mnemonic) : ∃ r ∈ opRows, r.mnemonic = m := by
  cases m <;> simp [opRows]

/-- Different mnemonics have different opcodes. -/
theorem opcode_injective : ∀ m n : Mnemonic, m.opcode = n.opcode → m = n := by
  intro m n
  cases m <;> cases n <;> decide

/-- The fields of `cw` are those of a word of the command `m` (R46, R47). -/
def WordOf (m : Mnemonic) (cw : CmdWord) : Prop :=
  opcOf cw = m.opcode ∧ rsvOf cw = 0#8 ∧ (m.usesB = true ∨ opB cw = 0#8) ∧ (m.usesA = true ∨ opA cw = 0#8)

/-- What decode answers, said once: a command exactly when the fields are a word of its mnemonic (R48). -/
theorem decode_eq_cmd_iff (cw : CmdWord) (i : Instr) : decode cw = .cmd i ↔
    ∃ m : Mnemonic, WordOf m cw ∧ i = Instr.ofFields m (opA cw) (opB cw) := by
  unfold decode
  constructor
  · intro h
    split at h
    next r hr =>
      injection h with h
      exact ⟨r.mnemonic, (row_admits_iff cw (List.mem_of_find?_eq_some hr)).1
        (List.find?_some (p := fun r : OpRow => r.admits cw) hr), h.symm⟩
    next => cases h
  · rintro ⟨m, hm, rfl⟩
    obtain ⟨r, hr, rfl⟩ := row_of_mnemonic m
    cases hf : opRows.find? (fun r => r.admits cw) with
    | none => exact absurd ((row_admits_iff cw hr).2 hm) (List.find?_eq_none.1 hf r hr)
    | some q =>
      have hq := (row_admits_iff cw (List.mem_of_find?_eq_some hf)).1
        (List.find?_some (p := fun r : OpRow => r.admits cw) hf)
      simp [opcode_injective q.mnemonic r.mnemonic (hq.1.symm.trans hm.1)]

/-- decode answers Illegal exactly when the fields are a word of no mnemonic (R49). -/
theorem decode_eq_illegal_iff (cw : CmdWord) : decode cw = .illegal ↔ ∀ m : Mnemonic, ¬ WordOf m cw := by
  constructor
  · intro h m hm
    have := (decode_eq_cmd_iff cw (Instr.ofFields m (opA cw) (opB cw))).2 ⟨m, hm, rfl⟩
    rw [h] at this
    cases this
  · intro h
    cases hd : decode cw with
    | illegal => rfl
    | cmd i =>
      obtain ⟨m, hm, -⟩ := (decode_eq_cmd_iff cw i).1 hd
      exact absurd hm (h m)

end Sys2Proof
end

