-- ==== Sys2Proof/Laws/PerInstr.lean ====
section
/-! SUPPORT. The families of statements made for each instruction, one lemma per constructor of Instr. -/

namespace Sys2Proof.Laws

/-- The fields of a command's word (R43, R46): its opcode, RSV = 0x00, and 0x00 in each operand field it does not use. -/
def EncodedFields.Statement (i : Instr) : Prop := WordOf i.mnemonic (encode i)

/-- The fields, from what the command says of its own unused fields. -/
theorem encodedFields_of (i : Instr) (hb : i.mnemonic.usesB = true ∨ i.fieldB = 0#8)
    (ha : i.mnemonic.usesA = true ∨ i.fieldA = 0#8) : EncodedFields.Statement i := by
  simpa [EncodedFields.Statement, WordOf, encode] using ⟨hb, ha⟩

theorem EncodedFields.nop : Statement .nop := encodedFields_of _ (.inr rfl) (.inr rfl)
theorem EncodedFields.getbit (a b : Byte) : Statement (.getbit a b) := encodedFields_of _ (.inl rfl) (.inl rfl)
theorem EncodedFields.setbit (a b : Byte) : Statement (.setbit a b) := encodedFields_of _ (.inl rfl) (.inl rfl)
theorem EncodedFields.clrbit (a b : Byte) : Statement (.clrbit a b) := encodedFields_of _ (.inl rfl) (.inl rfl)
theorem EncodedFields.rotl (a b : Byte) : Statement (.rotl a b) := encodedFields_of _ (.inl rfl) (.inl rfl)
theorem EncodedFields.rotr (a b : Byte) : Statement (.rotr a b) := encodedFields_of _ (.inl rfl) (.inl rfl)
theorem EncodedFields.keygen (b : Byte) : Statement (.keygen b) := encodedFields_of _ (.inl rfl) (.inr rfl)
theorem EncodedFields.keyld (a : Byte) : Statement (.keyld a) := encodedFields_of _ (.inr rfl) (.inl rfl)
theorem EncodedFields.keycalc (b : Byte) : Statement (.keycalc b) := encodedFields_of _ (.inl rfl) (.inr rfl)
theorem EncodedFields.encb (a b : Byte) : Statement (.encb a b) := encodedFields_of _ (.inl rfl) (.inl rfl)
theorem EncodedFields.decb (a b : Byte) : Statement (.decb a b) := encodedFields_of _ (.inl rfl) (.inl rfl)
theorem EncodedFields.enc (a : Byte) : Statement (.enc a) := encodedFields_of _ (.inr rfl) (.inl rfl)
theorem EncodedFields.dec (a : Byte) : Statement (.dec a) := encodedFields_of _ (.inr rfl) (.inl rfl)
theorem EncodedFields.crst : Statement .crst := encodedFields_of _ (.inr rfl) (.inr rfl)
theorem EncodedFields.kclr : Statement .kclr := encodedFields_of _ (.inr rfl) (.inr rfl)
theorem EncodedFields.rdreg (b : Byte) : Statement (.rdreg b) := encodedFields_of _ (.inl rfl) (.inr rfl)

end Sys2Proof.Laws
end

