-- ==== Sys2Proof/Laws/Step.lean ====
section
/-! SUPPORT. What a command can do and what a step can do, each said once. -/

namespace Sys2Proof.Machine

/-- What a command leaves, said once (R38): the state of an error; the state unchanged but for the response; a key written
or discarded; a session started; or, with a key, a chain step. -/
inductive Effect (s : State) : State → Prop where
  | raised (e : ErrCode) : Effect s (s.raiseError e)
  | answered (res : Byte) : Effect s (s.respond res)
  | keyWritten (k : Byte) : Effect s ((s.installKey k).respond k)
  | keyDiscarded : Effect s (s.discardKey.respond 0x00#8)
  | sessionStarted : Effect s (s.startSession.respond 0x00#8)
  | chained (c res : Byte) (h : s.keyv = true) : Effect s ((s.advanceChain c).respond res)

/-- A command on a checked operand, when each run of it has one of the effects. -/
theorem withOperand_effect {α : Type} {s : State} {operand : Option α} {e : ErrCode} {run : α → State}
    (h : ∀ v, Effect s (run v)) : Effect s (s.withOperand operand e run) := by
  cases operand with
  | some v => exact h v
  | none => exact .raised e

/-- Every command answers a next state, by one of the effects. -/
theorem exec_effect (i : Instr) (s : State) : ∃ t : State, exec i s = .next t ∧ Effect s t := by
  cases i with
  | nop => exact ⟨_, rfl, .answered _⟩
  | getbit a b => exact ⟨_, rfl, withOperand_effect fun _ => .answered _⟩
  | setbit a b => exact ⟨_, rfl, withOperand_effect fun _ => .answered _⟩
  | clrbit a b => exact ⟨_, rfl, withOperand_effect fun _ => .answered _⟩
  | rotl a b => exact ⟨_, rfl, withOperand_effect fun _ => .answered _⟩
  | rotr a b => exact ⟨_, rfl, withOperand_effect fun _ => .answered _⟩
  | keygen b => exact ⟨_, rfl, withOperand_effect fun _ => .keyWritten _⟩
  | keyld a => exact ⟨_, rfl, .keyWritten _⟩
  | keycalc b => exact ⟨_, rfl, withOperand_effect fun _ => .answered _⟩
  | encb a b => exact ⟨_, rfl, .answered _⟩
  | decb a b => exact ⟨_, rfl, .answered _⟩
  | enc a =>
    refine ⟨_, rfl, ?_⟩
    rcases withKey_cases s (fun key => (s.advanceChain (s.chainCipher a key)).respond (s.chainCipher a key)) with
      ⟨hk, he⟩ | ⟨-, he⟩ <;> rw [he]
    · exact .chained _ _ hk
    · exact .raised _
  | dec a =>
    refine ⟨_, rfl, ?_⟩
    rcases withKey_cases s (fun key => (s.advanceChain a).respond (s.chainPlain a key)) with ⟨hk, he⟩ | ⟨-, he⟩ <;> rw [he]
    · exact .chained _ _ hk
    · exact .raised _
  | crst => exact ⟨_, rfl, .sessionStarted⟩
  | kclr => exact ⟨_, rfl, .keyDiscarded⟩
  | rdreg b => exact ⟨_, rfl, withOperand_effect fun _ => .answered _⟩

/-- A command never touches the host's side. -/
theorem Effect.host {s t : State} (h : Effect s t) : t.inbox = s.inbox ∧ t.outbox = s.outbox := by
  cases h <;> simp [State.respond_inbox]

/-- The command in flight is due exactly when it runs next. -/
theorem dueCommand_eq_some_iff (s : State) (cw : CmdWord) : s.dueCommand = some cw ↔ s.runsNext cw := by
  unfold State.dueCommand State.runsNext State.resetNext
  cases s.port <;> simp [and_comm]

/-- A step completes the command in flight when no reset comes first (R95). -/
theorem step_of_runsNext {s : State} {cw : CmdWord} (h : s.runsNext cw) : step s = runWord cw s := by
  simp [step, (dueCommand_eq_some_iff s cw).2 h]

/-- A word that decodes to a command runs it (R95). -/
theorem runWord_of_cmd {cw : CmdWord} {i : Instr} (h : decode cw = .cmd i) (s : State) : runWord cw s = exec i s := by
  simp [runWord, h]

/-- A word that is no command raises E_ILLEGAL (R99). -/
theorem runWord_of_illegal {cw : CmdWord} (h : decode cw = .illegal) (s : State) :
    runWord cw s = .next (s.raiseError .illegal) := by
  simp [runWord, h, execIllegal]

/-- Every word is answered, with one of the effects (R95). -/
theorem runWord_answers (cw : CmdWord) (s : State) :
    ∃ (t : State) (r : RspWord), runWord cw s = .next t ∧ Effect s t ∧ t.port = .responding r := by
  have answered : ∀ t, Effect s t → ∃ r, t.port = .responding r := fun t h => by cases h <;> exact ⟨_, rfl⟩
  cases hd : decode cw with
  | illegal => exact ⟨_, _, runWord_of_illegal hd s, .raised _, rfl⟩
  | cmd i =>
    obtain ⟨t, ht, he⟩ := exec_effect i s
    obtain ⟨r, hr⟩ := answered t he
    exact ⟨t, r, (runWord_of_cmd hd s).trans ht, he, hr⟩

/-- A run of words begins with its first word. -/
theorem wordRun_cons {cw : CmdWord} {s t : State} {r : RspWord} (cws : List CmdWord) (h : runWord cw s = .next t)
    (hr : t.port = .responding r) : wordRun (cw :: cws) s = (r :: (wordRun cws t).1, (wordRun cws t).2) := by
  simp only [wordRun, h, hr]

/-- Every word of a run is answered once. -/
theorem wordRun_length (cws : List CmdWord) (s : State) : (wordRun cws s).1.length = cws.length := by
  induction cws generalizing s with
  | nil => rfl
  | cons cw cws ih =>
    obtain ⟨t, r, h, -, hr⟩ := runWord_answers cw s
    simp [wordRun_cons cws h hr, ih]

/-- A run of words in two parts. -/
theorem wordRun_append (first second : List CmdWord) (s : State) : wordRun (first ++ second) s =
    ((wordRun first s).1 ++ (wordRun second (wordRun first s).2).1, (wordRun second (wordRun first s).2).2) := by
  induction first generalizing s with
  | nil => rfl
  | cons cw cws ih =>
    obtain ⟨t, r, h, -, hr⟩ := runWord_answers cw s
    simp [wordRun_cons _ h hr, ih]

/-- With no command due, the step is the interface's. -/
theorem step_of_not_due {s : State} (h : s.dueCommand = none) : step s = .next s.interfaceStep := by
  simp [step, h]

/-- What the interface does, said once: a reset, an acceptance, a delivery, an idle moment, or nothing (R27, R113, U9). -/
inductive Transfer (s : State) : State → Prop where
  | reset : Transfer s s.consume.takeReset
  | accept (cw : CmdWord) (h : s.port = .idle) : Transfer s (s.consume.acceptCommand cw)
  | deliver (r : RspWord) (h : s.port = .responding r) : Transfer s (s.consume.deliver r)
  | pass : Transfer s s.consume
  | wait : Transfer s s

theorem interfaceStep_transfer (s : State) : Transfer s s.interfaceStep := by
  unfold State.interfaceStep
  split
  · exact .reset
  · next cw _ hp => exact .accept cw hp
  · next r _ hp => exact .deliver r hp
  · exact .pass
  · exact .wait

/-- What a step does, said once: it completes the command in flight, with one of the effects, or makes one transfer. -/
theorem step_cases (s : State) : ∃ t : State, step s = .next t ∧ ((∃ cw, s.runsNext cw) ∧ Effect s t ∨ Transfer s t) := by
  cases h : s.dueCommand with
  | none => exact ⟨_, step_of_not_due h, .inr (interfaceStep_transfer s)⟩
  | some cw =>
    have hr := (dueCommand_eq_some_iff s cw).1 h
    cases hd : decode cw with
    | illegal => exact ⟨_, (step_of_runsNext hr).trans (runWord_of_illegal hd s), .inl ⟨⟨cw, hr⟩, .raised _⟩⟩
    | cmd i =>
      obtain ⟨t, ht, he⟩ := exec_effect i s
      exact ⟨t, (step_of_runsNext hr).trans ((runWord_of_cmd hd s).trans ht), .inl ⟨⟨cw, hr⟩, he⟩⟩

/-- What a command does never depends on what the port holds. -/
theorem exec_port_irrelevant (i : Instr) (s : State) (p : Port) : exec i { s with port := p } = exec i s := by
  cases i <;> rfl

/-- What a command does never depends on the port or on the host's lists, and it leaves the lists as they are (R95). -/
theorem exec_host_irrelevant (i : Instr) (s : State) : ∃ t : State, exec i s = .next t ∧
    ∀ p a b, exec i { s with port := p, inbox := a, outbox := b } = .next { t with inbox := a, outbox := b } := by
  cases i with
  | nop | keyld | encb | decb | crst | kclr => exact ⟨_, rfl, fun _ _ _ => rfl⟩
  | enc | dec | getbit | setbit | clrbit | rotl | rotr | keygen | keycalc | rdreg =>
    simp only [exec, execEnc, execDec, execGetbit, execSetbit, execClrbit, execRotl, execRotr, execKeygen, execKeycalc,
      execRdreg, State.withOperand, State.withKey]
    split <;> exact ⟨_, rfl, fun _ _ _ => rfl⟩

/-- What a word does never depends on the port or on the host's lists (R95). -/
theorem runWord_host_irrelevant (cw : CmdWord) (s : State) : ∃ t : State, runWord cw s = .next t ∧
    ∀ p a b, runWord cw { s with port := p, inbox := a, outbox := b } = .next { t with inbox := a, outbox := b } := by
  cases hd : decode cw with
  | illegal => exact ⟨_, runWord_of_illegal hd s, fun _ _ _ => runWord_of_illegal hd _⟩
  | cmd i =>
    obtain ⟨t, h, ha⟩ := exec_host_irrelevant i s
    exact ⟨t, (runWord_of_cmd hd s).trans h, fun p a b => (runWord_of_cmd hd _).trans (ha p a b)⟩

/-- A run that begins with a step to a next state goes on from it. -/
theorem run_succ {n : Nat} {s u : State} (h : step s = .next u) :
    Host.Core.run Sys2Proof.core (n + 1) s = Host.Core.run Sys2Proof.core n u := by
  have hc : Sys2Proof.core.step s = .next u := h
  simp only [Host.Core.run, hc]

end Sys2Proof.Machine
end

