-- ==== Sys2Proof/Tests/Slice0.lean ====
section
/-! SUPPORT. Tests. Every expected value is the spec's own: the encodings of R43 to R94, the table of R46, and the vectors of
95_test_vectors.md (its sections are named); the interface tests follow R27, R113 and U9 by hand. The theorems named
`witness_…` show states and operands that meet the hypotheses of the obligation they are named after. -/

namespace Sys2Proof.Tests

open Sys2Proof.Machine

/-! ### Helpers -/

/-- The next state of an outcome. -/
def nextOf : Host.Outcome State Fault Refusal → Option State
  | .next t => some t
  | .fault _ | .refused _ => none

/-- A state with these registers, this port, and no host. -/
def stateOf (key : Byte) (keyv : Bool) (fb : Byte) (cnt : Counter) (port : Port) : State :=
  { key := key, keyv := keyv, fb := fb, cnt := cnt, port := port, inbox := [], outbox := [] }

/-- The state after one step that runs `cw` on these registers. -/
def ranWord (cw : CmdWord) (key : Byte) (keyv : Bool) (fb : Byte) (cnt : Counter) : Option State :=
  nextOf (step (stateOf key keyv fb cnt (.accepted cw)))

/-- The reset registers with the command word `cw` in flight. -/
def flight (cw : CmdWord) : State := stateOf 0x00#8 false 0xCB#8 0#32 (.accepted cw)

/-- Registers in the middle of a session, with no command in flight. -/
def midSession : State := stateOf 0xA5#8 true 0x8F#8 1#32 .idle

/-- Those registers with this port and these events of the host. -/
def facing (port : Port) (events : List HostEvent) : State := { midSession with port := port, inbox := events }

/-- No word of a list is of a kind. -/
theorem none_of {kind : CmdWord → Bool} {words : List CmdWord} (h : (words.all fun cw => !kind cw) = true) :
    ∀ cw ∈ words, kind cw = false := by
  simpa using h

/-- A word that is in flight in `flight cw` runs next. -/
theorem flight_runsNext (cw : CmdWord) : (flight cw).runsNext cw := ⟨rfl, nofun⟩

/-! ### Decoding: one word for every row of R46, from the examples of the command rules -/

theorem test_decode_nop : decode 0x00000000#32 = .cmd .nop := by decide
theorem test_decode_getbit : decode 0x0100038A#32 = .cmd (.getbit 0x8A#8 0x03#8) := by decide
theorem test_decode_setbit : decode 0x0200008A#32 = .cmd (.setbit 0x8A#8 0x00#8) := by decide
theorem test_decode_clrbit : decode 0x0300078A#32 = .cmd (.clrbit 0x8A#8 0x07#8) := by decide
theorem test_decode_rotl : decode 0x1000028A#32 = .cmd (.rotl 0x8A#8 0x02#8) := by decide
theorem test_decode_rotr : decode 0x1100022A#32 = .cmd (.rotr 0x2A#8 0x02#8) := by decide
theorem test_decode_keygen : decode 0x20000500#32 = .cmd (.keygen 0x05#8) := by decide
theorem test_decode_keyld : decode 0x21000001#32 = .cmd (.keyld 0x01#8) := by decide
theorem test_decode_keycalc : decode 0x22000900#32 = .cmd (.keycalc 0x09#8) := by decide
theorem test_decode_encb : decode 0x3000A58A#32 = .cmd (.encb 0x8A#8 0xA5#8) := by decide
theorem test_decode_decb : decode 0x3100A58F#32 = .cmd (.decb 0x8F#8 0xA5#8) := by decide
theorem test_decode_enc : decode 0x40000041#32 = .cmd (.enc 0x41#8) := by decide
theorem test_decode_dec : decode 0x4100008F#32 = .cmd (.dec 0x8F#8) := by decide
theorem test_decode_crst : decode 0x42000000#32 = .cmd .crst := by decide
theorem test_decode_kclr : decode 0x43000000#32 = .cmd .kclr := by decide
theorem test_decode_rdreg : decode 0x50000100#32 = .cmd (.rdreg 0x01#8) := by decide

/-- A legal word whose operand is out of range still decodes (R48; L2.7). -/
theorem test_decode_out_of_range : decode 0x10000901#32 = .cmd (.rotl 0x01#8 0x09#8) := by decide

/-- R47's masks are what R46 says of the fields each command uses. -/
theorem test_masks_follow_fields : opRows.all (fun r =>
    r.pattern == r.mnemonic.opcode ++ 0x000000#24 &&
    r.mask == 0xFFFF#16 ++ (if r.mnemonic.usesB then 0x00#8 else 0xFF#8) ++ (if r.mnemonic.usesA then 0x00#8 else 0xFF#8)) =
    true := by decide

/-- Unknown opcodes (L2.7). -/
theorem test_illegal_opcode :
    [0xFF000000#32, 0x12000000#32, 0x04000000#32, 0x44000000#32, 0x51000000#32].all (fun w => decode w == .illegal) =
    true := by decide
/-- A nonzero RSV (L2.1, L2.2, L2.7). -/
theorem test_illegal_reserved :
    [0x010100A5#32, 0x1001028A#32, 0x00010000#32, 0x43800000#32].all (fun w => decode w == .illegal) = true := by decide
/-- A nonzero unused operand field (L2.3, L2.5, L2.6, L2.7). -/
theorem test_illegal_unused : [0x20000501#32, 0x21000100#32, 0x2200FF01#32, 0x40000141#32, 0x42000001#32,
    0x00000001#32, 0x50000101#32].all (fun w => decode w == .illegal) = true := by decide

/-- The test by fields refuses one word for each of its checks: the opcode, RSV, an unused A, an unused B (R49). -/
theorem test_legalWord_refuses : legalWord 0x04000000#32 = false ∧ legalWord 0x01010000#32 = false ∧
    legalWord 0x22000501#32 = false ∧ legalWord 0x40000141#32 = false ∧ legalWord 0x1000FFFF#32 = true := by decide

theorem test_tableWord : decodeTableWord 32 0x0100038A = some (.getbit 0x8A#8 0x03#8) ∧
    decodeTableWord 32 0x40000141 = none ∧ decodeTableWord 40 0x0100000000 = none := by decide

/-! ### Well-formedness -/

/-- Every operand value is encoded (R45, R52), so every command is well formed. -/
theorem test_wellFormed : (Instr.rotl 0x01#8 0x09#8).wellFormed = true ∧ (Instr.keygen 0xFF#8).wellFormed = true := by decide
/-- The range check refuses one operand above the range for each command that has one (R45), and takes the last in it. -/
theorem test_inRange_refuses : [Instr.getbit 0x00#8 0x08#8, .setbit 0x00#8 0x08#8, .clrbit 0x00#8 0x08#8, .rotl 0x00#8 0x08#8,
    .rotr 0x00#8 0x08#8, .keygen 0x10#8, .keycalc 0x10#8, .rdreg 0x08#8].all (fun i => !i.inRange) = true := by decide
theorem test_inRange_accepts : [Instr.getbit 0xFF#8 0x07#8, .setbit 0xFF#8 0x07#8, .clrbit 0xFF#8 0x07#8, .rotl 0xFF#8 0x07#8,
    .rotr 0xFF#8 0x07#8, .keygen 0x0F#8, .keycalc 0x00#8, .rdreg 0x07#8, .encb 0xFF#8 0xFF#8].all Instr.inRange =
    true := by decide

/-! ### One step of each command, from 95_test_vectors.md L2 -/

theorem test_nop : ranWord 0x00000000#32 0x99#8 true 0x62#8 2#32 =
    some (stateOf 0x99#8 true 0x62#8 2#32 (.responding 0x000#12)) := by decide
theorem test_getbit : ranWord 0x0100038A#32 0x00#8 false 0xCB#8 0#32 =
    some (stateOf 0x00#8 false 0xCB#8 0#32 (.responding 0x001#12)) := by decide
theorem test_getbit_range : ranWord 0x010008A5#32 0x00#8 false 0xCB#8 0#32 =
    some (stateOf 0x00#8 false 0xCB#8 0#32 (.responding 0x200#12)) := by decide
theorem test_setbit : ranWord 0x0200008A#32 0x00#8 false 0xCB#8 0#32 =
    some (stateOf 0x00#8 false 0xCB#8 0#32 (.responding 0x08B#12)) := by decide
theorem test_clrbit : ranWord 0x0300078A#32 0x00#8 false 0xCB#8 0#32 =
    some (stateOf 0x00#8 false 0xCB#8 0#32 (.responding 0x00A#12)) := by decide
theorem test_rotl : ranWord 0x100003CB#32 0x00#8 false 0xCB#8 0#32 =
    some (stateOf 0x00#8 false 0xCB#8 0#32 (.responding 0x05E#12)) := by decide
theorem test_rotl_range : ranWord 0x1000088A#32 0x00#8 false 0xCB#8 0#32 =
    some (stateOf 0x00#8 false 0xCB#8 0#32 (.responding 0x300#12)) := by decide
theorem test_rotr : ranWord 0x110003CB#32 0x00#8 false 0xCB#8 0#32 =
    some (stateOf 0x00#8 false 0xCB#8 0#32 (.responding 0x079#12)) := by decide
theorem test_rotr_range : ranWord 0x1100FF8A#32 0x00#8 false 0xCB#8 0#32 =
    some (stateOf 0x00#8 false 0xCB#8 0#32 (.responding 0x300#12)) := by decide
theorem test_keygen : ranWord 0x20000500#32 0x99#8 true 0x62#8 2#32 =
    some (stateOf 0xA5#8 true 0xCB#8 0#32 (.responding 0x0A5#12)) := by decide
theorem test_keygen_range : ranWord 0x20001000#32 0x99#8 true 0x62#8 2#32 =
    some (stateOf 0x99#8 true 0x62#8 2#32 (.responding 0x400#12)) := by decide
theorem test_keyld : ranWord 0x2100005A#32 0xA5#8 true 0x8F#8 1#32 =
    some (stateOf 0x5A#8 true 0xCB#8 0#32 (.responding 0x05A#12)) := by decide
theorem test_keycalc : ranWord 0x22000500#32 0x99#8 true 0x62#8 2#32 =
    some (stateOf 0x99#8 true 0x62#8 2#32 (.responding 0x0A5#12)) := by decide
theorem test_keycalc_range : ranWord 0x22001000#32 0x00#8 false 0xCB#8 0#32 =
    some (stateOf 0x00#8 false 0xCB#8 0#32 (.responding 0x400#12)) := by decide
theorem test_encb_reversed_key : ranWord 0x3000018A#32 0x00#8 false 0xCB#8 0#32 =
    some (stateOf 0x00#8 false 0xCB#8 0#32 (.responding 0x0AA#12)) := by decide
theorem test_encb : ranWord 0x30009941#32 0x00#8 false 0xCB#8 0#32 =
    some (stateOf 0x00#8 false 0xCB#8 0#32 (.responding 0x09C#12)) := by decide
theorem test_decb_reversed_key : ranWord 0x310001AA#32 0x00#8 false 0xCB#8 0#32 =
    some (stateOf 0x00#8 false 0xCB#8 0#32 (.responding 0x08A#12)) := by decide
theorem test_decb : ranWord 0x3100A58A#32 0x00#8 false 0xCB#8 0#32 =
    some (stateOf 0x00#8 false 0xCB#8 0#32 (.responding 0x0CB#12)) := by decide
theorem test_enc_wraps : ranWord 0x40000041#32 0xA5#8 true 0x8F#8 0xFFFFFFFF#32 =
    some (stateOf 0xA5#8 true 0x9E#8 0#32 (.responding 0x09E#12)) := by decide
theorem test_enc_no_key : ranWord 0x40000041#32 0x00#8 false 0xCB#8 0#32 =
    some (stateOf 0x00#8 false 0xCB#8 0#32 (.responding 0x600#12)) := by decide
theorem test_dec : ranWord 0x4100009E#32 0xA5#8 true 0x8F#8 1#32 =
    some (stateOf 0xA5#8 true 0x9E#8 2#32 (.responding 0x041#12)) := by decide
theorem test_dec_no_key : ranWord 0x4100008F#32 0x00#8 false 0xCB#8 0#32 =
    some (stateOf 0x00#8 false 0xCB#8 0#32 (.responding 0x600#12)) := by decide
theorem test_crst : ranWord 0x42000000#32 0xA5#8 true 0x8F#8 1#32 =
    some (stateOf 0xA5#8 true 0xCB#8 0#32 (.responding 0x000#12)) := by decide
theorem test_kclr : ranWord 0x43000000#32 0xA5#8 true 0x8F#8 1#32 =
    some (stateOf 0x00#8 false 0xCB#8 0#32 (.responding 0x000#12)) := by decide
theorem test_rdreg_counter : ranWord 0x50000500#32 0xA5#8 true 0x8F#8 0x01020304#32 =
    some (stateOf 0xA5#8 true 0x8F#8 0x01020304#32 (.responding 0x001#12)) := by decide
theorem test_rdreg_range : ranWord 0x50000800#32 0xA5#8 true 0x8F#8 0x01020304#32 =
    some (stateOf 0xA5#8 true 0x8F#8 0x01020304#32 (.responding 0x500#12)) := by decide
/-- E_ILLEGAL comes before E_NOKEY (R107; L2.5). -/
theorem test_illegal_first : ranWord 0x40000141#32 0x00#8 false 0xCB#8 0#32 =
    some (stateOf 0x00#8 false 0xCB#8 0#32 (.responding 0x100#12)) := by decide

/-! ### Functions on messages, from 95_test_vectors.md P2, P5 and P7 -/

theorem test_encrypt_hello : encryptMessage [0x48#8, 0x65#8, 0x6C#8, 0x6C#8, 0x6F#8] 0xA5#8 =
    [0xAB#8, 0x9E#8, 0x6E#8, 0xAD#8, 0xAE#8] := by decide
theorem test_decrypt_hi : decryptMessage [0x97#8, 0x62#8] 0x99#8 = [0x48#8, 0x69#8] := by decide
theorem test_encrypt_counter_example : encryptMessage [0x41#8, 0x42#8] 0xA5#8 = [0x8F#8, 0x92#8] ∧
    encryptMessage [0x42#8, 0x4E#8] 0xA5#8 = [0x83#8, 0x92#8] := by decide

/-! ### The interface -/

theorem test_accept : nextOf (step { midSession with inbox := [.command 0x00000000#32, .take] }) =
    some { midSession with port := .accepted 0x00000000#32, inbox := [.take] } := by decide
theorem test_take_too_early : nextOf (step { midSession with inbox := [.take] }) = some { midSession with inbox := [.take] } := by
  decide
theorem test_reset_discards_command : nextOf (step { flight 0x21000001#32 with inbox := [.reset] }) = some State.reset := by
  decide
theorem test_idle_lets_command_complete : nextOf (step { flight 0x21000001#32 with inbox := [.idle, .reset] }) =
    some { stateOf 0x01#8 true 0xCB#8 0#32 (.responding 0x001#12) with inbox := [.idle, .reset] } := by decide
theorem test_withFetchWord : nextOf (step (State.reset.withFetchWord 32 0x21000001)) =
    some (stateOf 0x01#8 true 0xCB#8 0#32 (.responding 0x001#12)) := by decide

/-! ### The assembler (R51, R52) -/

theorem test_assemble_unknown : asmLine "FROB 1".toList = .error .unknownMnemonic := rfl
theorem test_assemble_negative : asmLine "KEYLD -1".toList = .error .operandRange := rfl
theorem test_assemble_decrypt : asmLine "DECRYPT 1, []".toList = .ok [.keyld 0x01#8] := rfl
theorem test_assemble_selector_elsewhere : asmLine "KEYLD KEY".toList = .error .badOperand := rfl

/-! ### Witnesses: the hypotheses of each obligation can be met, at the ends of their ranges -/

theorem witness_DecodeOfEncode : (Instr.rotl 0xFF#8 0xFF#8).wellFormed = true := by decide
theorem witness_EncodeOfDecode : decode 0x5000FF00#32 = .cmd (.rdreg 0xFF#8) := by decide
theorem witness_RowsAreDisjoint : ⟨.enc, 0x40000000#32, 0xFFFFFF00#32⟩ ∈ opRows ∧
    (⟨.enc, 0x40000000#32, 0xFFFFFF00#32⟩ : OpRow).admits 0x400000FF#32 = true := by decide
theorem witness_IllegalWords : (flight 0x40000141#32).runsNext 0x40000141#32 ∧ decode 0x40000141#32 = .illegal :=
  ⟨flight_runsNext _, by decide⟩

/-- A word of each opcode of a command with one kind of stray bit (its RSV, or its unused field) is in flight. -/
theorem witness_GetbitCommand : (flight 0x01010000#32).runsNext 0x01010000#32 ∧
    (0x01010000#32).extractLsb' 24 8 = 0x01#8 ∧ (0x01010000#32).extractLsb' 16 8 ≠ 0#8 ∧
    (0x07#8).toNat ≤ 7 ∧ 7 < (0x08#8).toNat ∧ 7 < (0xFF#8).toNat := ⟨flight_runsNext _, by decide⟩
theorem witness_SetbitCommand : (flight 0x02800000#32).runsNext 0x02800000#32 ∧
    (0x02800000#32).extractLsb' 24 8 = 0x02#8 ∧ (0x02800000#32).extractLsb' 16 8 ≠ 0#8 ∧
    (0x07#8).toNat ≤ 7 ∧ 7 < (0x08#8).toNat := ⟨flight_runsNext _, by decide⟩
theorem witness_ClrbitCommand : (flight 0x03800000#32).runsNext 0x03800000#32 ∧
    (0x03800000#32).extractLsb' 24 8 = 0x03#8 ∧ (0x03800000#32).extractLsb' 16 8 ≠ 0#8 ∧
    (0x00#8).toNat ≤ 7 ∧ 7 < (0x08#8).toNat := ⟨flight_runsNext _, by decide⟩
theorem witness_BitFieldLaws : (0x00#8).toNat ≤ 7 ∧ (0x07#8).toNat ≤ 7 ∧ 0x00#8 ≠ 0x07#8 := by decide
theorem witness_RotlCommand : (flight 0x10010901#32).runsNext 0x10010901#32 ∧
    (0x10010901#32).extractLsb' 24 8 = 0x10#8 ∧ (0x10010901#32).extractLsb' 16 8 ≠ 0#8 ∧
    (0x00#8).toNat ≤ 7 ∧ (0x07#8).toNat ≤ 7 ∧ 7 < (0x08#8).toNat := ⟨flight_runsNext _, by decide⟩
theorem witness_RotrCommand : (flight 0x11010000#32).runsNext 0x11010000#32 ∧
    (0x11010000#32).extractLsb' 24 8 = 0x11#8 ∧ (0x11010000#32).extractLsb' 16 8 ≠ 0#8 ∧
    (0x00#8).toNat ≤ 7 ∧ (0x07#8).toNat ≤ 7 ∧ 7 < (0x08#8).toNat := ⟨flight_runsNext _, by decide⟩
theorem witness_RotationClosedForms : (0x07#8).toNat ≤ 7 ∧ 7 ≤ 7 := by decide
theorem witness_RotationLaws : (0x07#8).toNat ≤ 7 ∧ (0x01#8).toNat ≤ 7 ∧ 1 ≤ (0x01#8).toNat := by decide

theorem witness_KeygenCommand : (flight 0x20000501#32).runsNext 0x20000501#32 ∧
    (0x20000501#32).extractLsb' 24 8 = 0x20#8 ∧ (0x20000501#32).extractLsb' 0 8 ≠ 0#8 ∧
    (0x00#8).toNat ≤ 15 ∧ (0x0F#8).toNat ≤ 15 ∧ 15 < (0x10#8).toNat := ⟨flight_runsNext _, by decide⟩
theorem witness_KeyldCommand : (flight 0x21000100#32).runsNext 0x21000100#32 ∧
    (0x21000100#32).extractLsb' 24 8 = 0x21#8 ∧ (0x21000100#32).extractLsb' 8 8 ≠ 0#8 := ⟨flight_runsNext _, by decide⟩
theorem witness_KeycalcCommand : (flight 0x2200FF01#32).runsNext 0x2200FF01#32 ∧
    (0x2200FF01#32).extractLsb' 24 8 = 0x22#8 ∧ (0x2200FF01#32).extractLsb' 0 8 ≠ 0#8 ∧
    (0x0F#8).toNat ≤ 15 ∧ 15 < (0x10#8).toNat := ⟨flight_runsNext _, by decide⟩
theorem witness_KeysArePalindromesAndDistinct : (0x0F#8).toNat ≤ 15 ∧ (0x0E#8).toNat ≤ 15 ∧
    exec (.keygen 0x0F#8) State.reset = .next (stateOf 0xFF#8 true 0xCB#8 0#32 (.responding 0x0FF#12)) ∧
    answer (.keycalc 0x0F#8) State.reset = some 0xFF#8 := ⟨by decide, by decide, rfl, by decide⟩

theorem witness_EncbCommand : (flight 0x3001A58A#32).runsNext 0x3001A58A#32 ∧
    (0x3001A58A#32).extractLsb' 24 8 = 0x30#8 ∧ (0x3001A58A#32).extractLsb' 16 8 ≠ 0#8 := ⟨flight_runsNext _, by decide⟩
theorem witness_DecbCommand : (flight 0x31800000#32).runsNext 0x31800000#32 ∧
    (0x31800000#32).extractLsb' 24 8 = 0x31#8 ∧ (0x31800000#32).extractLsb' 16 8 ≠ 0#8 := ⟨flight_runsNext _, by decide⟩

theorem witness_EncCommand : (flight 0x40000141#32).runsNext 0x40000141#32 ∧
    (0x40000141#32).extractLsb' 24 8 = 0x40#8 ∧ (0x40000141#32).extractLsb' 8 8 ≠ 0#8 ∧
    midSession.keyv = true ∧ State.reset.keyv = false := ⟨flight_runsNext _, by decide⟩
theorem witness_DecCommand : (flight 0x41010000#32).runsNext 0x41010000#32 ∧
    (0x41010000#32).extractLsb' 24 8 = 0x41#8 ∧ (0x41010000#32).extractLsb' 16 8 ≠ 0#8 ∧
    midSession.keyv = true ∧ State.reset.keyv = false := ⟨flight_runsNext _, by decide⟩
theorem witness_CrstCommand : (flight 0x42000001#32).runsNext 0x42000001#32 ∧
    (0x42000001#32).extractLsb' 24 8 = 0x42#8 ∧ 0x42000001#32 ≠ 0x42000000#32 ∧
    State.reset.keyv = false ∧ State.reset.keylessIsReset :=
  ⟨flight_runsNext _, by decide, by decide, rfl, fun _ => ⟨rfl, rfl, rfl⟩⟩
theorem witness_KclrCommand : (flight 0x43800000#32).runsNext 0x43800000#32 ∧
    (0x43800000#32).extractLsb' 24 8 = 0x43#8 ∧ 0x43800000#32 ≠ 0x43000000#32 := ⟨flight_runsNext _, by decide⟩
/-- KCLR, then a CRST, a KEYGEN that ends with E_SEED and an illegal word, none of which installs a key. -/
theorem witness_KclrCommand_refuses :
    exec .kclr midSession = .next (stateOf 0x00#8 false 0xCB#8 0#32 (.responding 0x000#12)) ∧
    (∀ cw ∈ [0x42000000#32, 0x20001000#32, 0xFF000000#32], wordIs installsKey cw = false) ∧
    (∀ cw ∈ ([] : List CmdWord), wordIs installsKey cw = false) ∧
    stateOf 0x00#8 false 0xCB#8 0#32 (.responding 0x100#12) = (wordRun [0x42000000#32, 0x20001000#32, 0xFF000000#32]
      (stateOf 0x00#8 false 0xCB#8 0#32 (.responding 0x000#12))).2 := ⟨rfl, none_of (by decide), nofun, rfl⟩
/-- A session start with a key; words with chain steps, a pure command, a KEYGEN that ends with E_SEED and an illegal word
between them, with DEC or ENC the last chain step; and words with no chain step. -/
theorem witness_SessionFeedback : (stateOf 0xA5#8 true 0xCB#8 0#32 .idle).keyv = true ∧
    (stateOf 0xA5#8 true 0xCB#8 0#32 .idle).fb = 0xCB#8 ∧ (stateOf 0xA5#8 true 0xCB#8 0#32 .idle).cnt = 0#32 ∧
    (∀ cw ∈ [0x20001000#32, 0x40000041#32, 0xFF000000#32, 0x4100008F#32, 0x50000100#32], wordIs sessionStart cw = false) ∧
    (∀ cw ∈ [0x50000100#32], wordIs chainStepOf cw = false) ∧ decode 0x4100008F#32 = .cmd (.dec 0x8F#8) ∧
    (∀ cw ∈ [0x20001000#32, 0x40000041#32], wordIs sessionStart cw = false) ∧
    [0x20001000#32, 0x40000041#32] = [0x20001000#32] ++ 0x40000041#32 :: ([] : List CmdWord) ∧
    decode 0x40000041#32 = .cmd (.enc 0x41#8) ∧ (∀ cw ∈ [0x20001000#32], wordIs chainStepOf cw = false) ∧
    wordRun [0x20001000#32, 0x40000041#32] (stateOf 0xA5#8 true 0xCB#8 0#32 .idle) =
      ([0x400#12, 0x08F#12], stateOf 0xA5#8 true 0x8F#8 1#32 (.responding 0x08F#12)) :=
  ⟨rfl, rfl, rfl, none_of (by decide), none_of (by decide), by decide, none_of (by decide), rfl, by decide,
    none_of (by decide), rfl⟩
/-- KEYGEN 9 may stand for KEYLD 0x99, the key of P2. -/
theorem witness_EncryptResults : Instr.keygen 0x09#8 = .keygen ((9#4).setWidth 8) ∧ 0x99#8 = computeKey 9#4 := by decide
/-- The host of P2 has sent KEYGEN 9 or KEYLD 0x99 before the two bytes of "Hi". -/
theorem witness_EncryptSession : midSession.port = .idle ∧
    (∃ seed : Seed, Instr.keygen 0x09#8 = .keygen (seed.setWidth 8) ∧ 0x99#8 = computeKey seed) ∧
    { midSession with inbox := [.command 0x20000900#32, .take, .command 0x40000048#32, .take, .command 0x40000069#32, .take,
        .reset] }.inbox =
      hostScript (.keygen 0x09#8 :: (encryptOp 0x99#8 [0x48#8, 0x69#8]).tail) ++ [.reset] ∧
    { midSession with inbox := [.command 0x21000099#32, .take] }.inbox =
      hostScript (.keyld 0x99#8 :: (encryptOp 0x99#8 []).tail) ++ [] :=
  ⟨rfl, ⟨9#4, by decide, by decide⟩, by decide, by decide⟩
theorem witness_DecryptSession : State.reset.port = .idle ∧
    { State.reset with inbox := [.command 0x21000099#32, .take, .command 0x41000097#32, .take, .idle] }.inbox =
      hostScript (decryptOp 0x99#8 [0x97#8]) ++ [.idle] ∧
    { State.reset with inbox := [.command 0x21000099#32, .take] }.inbox = hostScript (decryptOp 0x99#8 []) ++ [] := by decide
/-- Two chain steps under one key with different feedback, as in P5; and the second byte of a message. -/
theorem witness_FeedbackDependency : midSession.keyv = true ∧ (stateOf 0xA5#8 true 0x83#8 1#32 .idle).keyv = true ∧
    midSession.key = (stateOf 0xA5#8 true 0x83#8 1#32 .idle).key ∧ 0 + 1 < [0x41#8, 0x42#8].length := by decide
theorem witness_DecbRecoversPlaintext : 0 < [0xAA#8, 0x23#8].length ∧ 1 < [0xAA#8, 0x23#8].length := by decide
theorem witness_ChainIgnoresCounter : chainStepOf (.enc 0x41#8) = true ∧ chainStepOf (.dec 0x8F#8) = true ∧
    exec (.enc 0x41#8) midSession = .next (stateOf 0xA5#8 true 0x9E#8 2#32 (.responding 0x09E#12)) ∧
    exec (.dec 0x8F#8) State.reset = .next (stateOf 0x00#8 false 0xCB#8 0#32 (.responding 0x600#12)) :=
  ⟨by decide, by decide, rfl, rfl⟩

theorem witness_NopCommand : (flight 0x00010000#32).runsNext 0x00010000#32 ∧
    (0x00010000#32).extractLsb' 24 8 = 0x00#8 ∧ 0x00010000#32 ≠ 0#32 := ⟨flight_runsNext _, by decide⟩
theorem witness_RdregCommand : (flight 0x50000101#32).runsNext 0x50000101#32 ∧
    (0x50000101#32).extractLsb' 24 8 = 0x50#8 ∧ (0x50000101#32).extractLsb' 0 8 ≠ 0#8 ∧ 7 < (0x08#8).toNat :=
  ⟨flight_runsNext _, by decide⟩

/-- ROTL by 8 in flight is answered with E_ROTAMT. -/
theorem witness_ErrorsLeaveNoTrace : (flight 0x1000088A#32).runsNext 0x1000088A#32 ∧
    step (flight 0x1000088A#32) = .next (stateOf 0x00#8 false 0xCB#8 0#32 (.responding 0x300#12)) ∧
    errOf 0x300#12 ≠ 0x0#4 := ⟨flight_runsNext _, rfl, by decide⟩
/-- Two steps from reset with one command of the host run it. -/
theorem witness_NoReservedCodeIsReported :
    Host.Core.run Sys2Proof.core 3 { State.reset with inbox := [.command 0xFF000000#32, .take, .idle] } =
    .next { State.reset with inbox := [.idle], outbox := [0x100#12] } := rfl

theorem witness_SideEffects :
    exec (.keygen 0x05#8) State.reset = .next (stateOf 0xA5#8 true 0xCB#8 0#32 (.responding 0x0A5#12)) ∧
    exec .nop midSession = .next (stateOf 0xA5#8 true 0x8F#8 1#32 (.responding 0x000#12)) ∧ pureCommand .nop = true ∧
    chainStepOf (.keygen 0x05#8) = false ∧ chainStepOf (.enc 0x41#8) = true ∧
    exec (.enc 0x41#8) midSession = .next (stateOf 0xA5#8 true 0x9E#8 2#32 (.responding 0x09E#12)) :=
  ⟨rfl, rfl, by decide, by decide, by decide, rfl⟩
theorem witness_StatelessCommands : pureCommand (.encb 0x8A#8 0xA5#8) = true ∧
    ∀ b : Byte, Instr.encb 0x8A#8 0xA5#8 ≠ .rdreg b := ⟨by decide, nofun⟩
/-- The same registers and the same command in flight, before two different hosts. -/
theorem witness_StepReadsOnlyRegistersAndWord :
    (flight 0x40000041#32).sameRegs { flight 0x40000041#32 with inbox := [.take], outbox := [0x0A5#12] } ∧
    (flight 0x40000041#32).runsNext 0x40000041#32 ∧
    State.runsNext { flight 0x40000041#32 with inbox := [.take], outbox := [0x0A5#12] } 0x40000041#32 :=
  ⟨⟨rfl, rfl, rfl, rfl⟩, flight_runsNext _, rfl, by decide⟩
theorem witness_KeyChangesOnlyAtSessionStart :
    step (flight 0x21000001#32) = .next (stateOf 0x01#8 true 0xCB#8 0#32 (.responding 0x001#12)) ∧
    (stateOf 0x01#8 true 0xCB#8 0#32 (.responding 0x001#12)).key ≠ (flight 0x21000001#32).key := ⟨rfl, by decide⟩
theorem witness_OnlyKeyCommandsInstall :
    step (flight 0x21000001#32) = .next (stateOf 0x01#8 true 0xCB#8 0#32 (.responding 0x001#12)) ∧
    (flight 0x21000001#32).keyv = false ∧
    exec (.keyld 0x01#8) State.reset = .next (stateOf 0x01#8 true 0xCB#8 0#32 (.responding 0x001#12)) ∧
    State.reset.keyv = false ∧ (stateOf 0x01#8 true 0xCB#8 0#32 (.responding 0x001#12)).keyv = true :=
  ⟨rfl, rfl, rfl, rfl, rfl⟩
theorem witness_PureCommandsMayBeInterleaved : pureCommand (.rdreg 0x01#8) = true ∧
    exec (.rdreg 0x01#8) midSession = .next (stateOf 0xA5#8 true 0x8F#8 1#32 (.responding 0x08F#12)) := ⟨by decide, rfl⟩

theorem witness_StepRunsDecodedCommand : (flight 0x40000041#32).runsNext 0x40000041#32 ∧
    decode 0x40000041#32 = .cmd (.enc 0x41#8) ∧ (Instr.enc 0x41#8).wellFormed = true :=
  ⟨flight_runsNext _, by decide, by decide⟩
theorem witness_CoreNeverStops : State.reset.port = .idle ∧ State.reset.inbox = [] := by decide
/-- One state for each clause, in their order. -/
theorem witness_CommandsAndResponsesTransfer :
    ((facing .idle [.command 0x00000000#32]).inbox = .command 0x00000000#32 :: [] ∧
      (facing .idle [.command 0x00000000#32]).port = .idle) ∧
    ((facing (.responding 0x08F#12) [.command 0x00000000#32, .take]).inbox = .command 0x00000000#32 :: [.take] ∧
      (facing (.responding 0x08F#12) [.command 0x00000000#32, .take]).port = .responding 0x08F#12) ∧
    ((facing (.responding 0x08F#12) [.take, .idle]).inbox = .take :: [.idle] ∧
      (facing (.responding 0x08F#12) [.take, .idle]).port = .responding 0x08F#12) ∧
    ((facing (.responding 0x08F#12) []).inbox = [] ∧ (facing (.responding 0x08F#12) []).port = .responding 0x08F#12) ∧
    ((facing .idle [.take]).inbox = .take :: [] ∧ (facing .idle [.take]).port = .idle) ∧
    ((facing .idle [.idle, .take]).inbox = .idle :: [.take] ∧
      ∀ cw : CmdWord, (facing .idle [.idle, .take]).port ≠ .accepted cw) ∧
    ((facing (.responding 0x08F#12) [.idle]).inbox = .idle :: [] ∧
      ∀ cw : CmdWord, (facing (.responding 0x08F#12) [.idle]).port ≠ .accepted cw) :=
  ⟨⟨rfl, rfl⟩, ⟨rfl, rfl⟩, ⟨rfl, rfl⟩, ⟨rfl, rfl⟩, ⟨rfl, rfl⟩, ⟨rfl, nofun⟩, ⟨rfl, nofun⟩⟩
/-- A word that is no command among the words; and no word at all. -/
theorem witness_OneResponsePerCommand : State.reset.port = .idle ∧
    { State.reset with inbox := [.command 0x20000500#32, .take, .command 0xFF000000#32, .take, .reset] }.inbox =
      wordScript [0x20000500#32, 0xFF000000#32] ++ [.reset] ∧
    (wordRun [0x20000500#32, 0xFF000000#32] State.reset =
      ([0x0A5#12, 0x100#12], stateOf 0xA5#8 true 0xCB#8 0#32 (.responding 0x100#12))) ∧
    State.reset.inbox = wordScript [] ++ [] ∧ wordRun [] State.reset = ([], State.reset) :=
  ⟨rfl, rfl, rfl, rfl, rfl⟩
theorem witness_ResetEvent_accepts :
    { flight 0x21000001#32 with inbox := [.reset, .command 0x40000041#32, .take] }.inbox =
      .reset :: .command 0x40000041#32 :: [.take] ∧ (∀ r : RspWord, (flight 0x21000001#32).port ≠ .responding r) := ⟨rfl, nofun⟩
theorem witness_ResetEvent : { flight 0x21000001#32 with inbox := [.reset, .idle] }.inbox = .reset :: [.idle] ∧
    (∀ r : RspWord, (flight 0x21000001#32).port ≠ .responding r) := ⟨rfl, nofun⟩
theorem witness_ResetDiscardsHeldResponse :
    { stateOf 0xA5#8 true 0x8F#8 1#32 (.responding 0x08F#12) with inbox := [.reset] }.inbox = .reset :: [] ∧
    (stateOf 0xA5#8 true 0x8F#8 1#32 (.responding 0x08F#12)).port = .responding 0x08F#12 := by decide

/-- A state with a command in flight meets the invariant, and its step runs the command. -/
theorem witness_InvariantKept : (flight 0x20000500#32).Inv ∧
    step (flight 0x20000500#32) = .next (stateOf 0xA5#8 true 0xCB#8 0#32 (.responding 0x0A5#12)) :=
  ⟨⟨fun _ => ⟨rfl, rfl, rfl⟩, nofun, nofun⟩, rfl⟩

theorem witness_AssemblerOperands : (∃ v ∈ [(256 : Int), 3], v < 0 ∨ 255 < v) ∧ (∃ v ∈ [(-1 : Int)], v < 0 ∨ 255 < v) ∧
    [(0 : Int)].length ≠ Mnemonic.crst.usesA.toNat + Mnemonic.crst.usesB.toNat := by decide

end Sys2Proof.Tests
end

section
/-! PROOFS. What a step reads and writes of the state, and the transfers of the interface (R17 to R28, R81, R95, R113, R116):
first the rules about single steps, then the obligations O36, O44, O45, O46, O50, O51, O53 and O54. -/

namespace Sys2Proof.Proofs.StateRules

open Sys2Proof Sys2Proof.Machine

/-! ### The interface's steps, one rule for each transfer -/

/-- With no command in flight the step is the interface's. -/
theorem step_of_no_command {s : State} (h : ∀ cw, s.port ≠ .accepted cw) : step s = .next s.interfaceStep := by
  refine step_of_not_due (Option.eq_none_iff_forall_not_mem.2 fun cw hcw => ?_)
  exact h cw ((dueCommand_eq_some_iff s cw).1 hcw).1

/-- A reset that comes next is taken, whatever is in flight (R113). -/
theorem step_reset {s : State} {rest : List HostEvent} (hi : s.inbox = .reset :: rest) :
    step s = .next { s.takeReset with inbox := rest } := by
  have hdue : s.dueCommand = none :=
    Option.eq_none_iff_forall_not_mem.2 fun cw hcw => ((dueCommand_eq_some_iff s cw).1 hcw).2 (by simp [hi])
  rw [step_of_not_due hdue]
  simp [State.interfaceStep, hi, State.consume, State.takeReset]

/-- A command transfers when none is in flight (R27). -/
theorem step_accept {s : State} {cw : CmdWord} {rest : List HostEvent} (hi : s.inbox = .command cw :: rest)
    (hp : s.port = .idle) : step s = .next { s with port := .accepted cw, inbox := rest } := by
  rw [step_of_no_command (by simp [hp])]
  simp [State.interfaceStep, hi, hp, State.consume, State.acceptCommand]

/-- A held response transfers when the host takes it (R27). -/
theorem step_deliver {s : State} {r : RspWord} {rest : List HostEvent} (hi : s.inbox = .take :: rest)
    (hp : s.port = .responding r) :
    step s = .next { s with port := .idle, inbox := rest, outbox := s.outbox ++ [r] } := by
  rw [step_of_no_command (by simp [hp])]
  simp [State.interfaceStep, hi, hp, State.consume, State.deliver]

/-- A command offered while a response is held waits (U9). -/
theorem step_offer_waits {s : State} {cw : CmdWord} {r : RspWord} {rest : List HostEvent}
    (hi : s.inbox = .command cw :: rest) (hp : s.port = .responding r) : step s = .next s := by
  rw [step_of_no_command (by simp [hp])]
  simp [State.interfaceStep, hi, hp]

/-- A take with nothing in flight waits (R96). -/
theorem step_take_waits {s : State} {rest : List HostEvent} (hi : s.inbox = .take :: rest) (hp : s.port = .idle) :
    step s = .next s := by
  rw [step_of_no_command (by simp [hp])]
  simp [State.interfaceStep, hi, hp]

/-- With no command in flight and a host that does nothing more, the CORE waits (R96). -/
theorem step_empty_waits {s : State} (hi : s.inbox = []) (hp : ∀ cw, s.port ≠ .accepted cw) : step s = .next s := by
  rw [step_of_no_command hp]
  simp [State.interfaceStep, hi]

/-- With no command in flight an idle moment passes (R96). -/
theorem step_idle_passes {s : State} {rest : List HostEvent} (hi : s.inbox = .idle :: rest)
    (hp : ∀ cw, s.port ≠ .accepted cw) : step s = .next { s with inbox := rest } := by
  rw [step_of_no_command hp]
  simp [State.interfaceStep, hi, State.consume]

/-! ### Chain steps and the counter -/

/-- With a key, the ciphertext and the result of a chain step are the same for every value of CNT (R22, R82, R83). -/
theorem chainStep_keyed {i : Instr} {s : State} (hi : chainStepOf i = true) (hk : s.keyv = true) :
    ∃ c res : Byte, ∀ n : Counter,
      exec i { s with cnt := n } = .next ((State.advanceChain { s with cnt := n } c).respond res) := by
  cases i with
  | enc a =>
    exact ⟨s.chainCipher a s.key, s.chainCipher a s.key, fun n => congrArg Host.Outcome.next (if_pos hk)⟩
  | dec a => exact ⟨a, s.chainPlain a s.key, fun n => congrArg Host.Outcome.next (if_pos hk)⟩
  | _ => cases hi

/-- Without a key a chain step raises E_NOKEY (R104). -/
theorem chainStep_keyless {i : Instr} {s : State} (hi : chainStepOf i = true) (hk : s.keyv = false) :
    exec i s = .next (s.raiseError .nokey) := by
  cases i with
  | enc a => simp [exec, execEnc, State.withKey, hk]
  | dec a => simp [exec, execDec, State.withKey, hk]
  | _ => cases hi

/-! ### What a command and a transfer do to KEY and KEYV -/

/-- A command that changes KEY starts a session (R81). -/
theorem effect_key_change {s t : State} (h : Effect s t) (hne : t.key ≠ s.key) : t.fb = Config.iv ∧ t.cnt = 0#32 := by
  cases h with
  | raised | answered | chained | sessionStarted => exact absurd rfl hne
  | keyWritten | keyDiscarded => exact ⟨rfl, rfl⟩

/-- A transfer that changes KEY is a reset (R113). -/
theorem transfer_key_change {s t : State} (h : Transfer s t) (hne : t.key ≠ s.key) :
    t.fb = Config.iv ∧ t.cnt = 0#32 := by
  cases h with
  | accept | deliver | pass | wait => exact absurd rfl hne
  | reset => exact ⟨rfl, rfl⟩

/-- A command that sets KEYV answers the key it has written (R68, R69). -/
theorem effect_installs_answers_key {s t : State} (h : Effect s t) (hs : s.keyv = false) (ht : t.keyv = true) :
    t.port = .responding (okRsp t.key) := by
  cases h with
  | keyWritten => rfl
  | raised | answered | chained | sessionStarted => exact absurd (hs.symm.trans ht) Bool.false_ne_true
  | keyDiscarded => cases ht

/-- No transfer sets KEYV (R19). -/
theorem keyv_of_transfer {s t : State} (h : Transfer s t) (ht : t.keyv = true) : s.keyv = true := by
  cases h with
  | reset => cases ht
  | accept | deliver | pass | wait => exact ht

/-- A command on a checked operand sets KEYV only if a run of it does: the error keeps it (R108). -/
theorem keyv_of_withOperand {α : Type} {s : State} {operand : Option α} {e : ErrCode} {run : α → State}
    (ht : (s.withOperand operand e run).keyv = true) (hrun : ∀ v, (run v).keyv = s.keyv) : s.keyv = true := by
  rcases withOperand_cases s operand e run with ⟨v, -, he⟩ | ⟨-, he⟩ <;> rw [he] at ht
  · exact (hrun v).symm.trans ht
  · exact ht

/-- A chain step sets no KEYV: it runs only when KEYV is 1, and E_NOKEY keeps it (R104). -/
theorem keyv_of_withKey {s : State} {run : Byte → State} (ht : (s.withKey run).keyv = true) : s.keyv = true := by
  rcases withKey_cases s run with ⟨hk, -⟩ | ⟨-, he⟩
  · exact hk
  · exact (congrArg State.keyv he).symm.trans ht

/-- A command that is no completing KEYGEN or KEYLD does not set KEYV (R19). -/
theorem exec_keyv_of_not_installsKey {i : Instr} (s : State) (hi : installsKey i = false) :
    ∃ t : State, exec i s = .next t ∧ (t.keyv = true → s.keyv = true) := by
  cases i with
  | nop | encb | decb | crst => exact ⟨_, rfl, id⟩
  | getbit | setbit | clrbit | rotl | rotr | keycalc | rdreg =>
    exact ⟨_, rfl, fun ht => keyv_of_withOperand ht fun _ => rfl⟩
  | enc | dec => exact ⟨_, rfl, keyv_of_withKey⟩
  | keygen b =>
    have hb : 15 < b.toNat := by simpa [installsKey] using hi
    refine ⟨s.raiseError .seed, ?_, id⟩
    simp [exec, execKeygen, seedOperand_of_gt hb]
  | keyld => cases hi
  | kclr => exact ⟨_, rfl, nofun⟩

/-- A command after which KEYV is 1 where it was 0 is a KEYGEN or KEYLD that completes (R19, R116). -/
theorem installsKey_of_exec_sets_keyv {i : Instr} {s t : State} (h : exec i s = .next t) (hs : s.keyv = false)
    (ht : t.keyv = true) : installsKey i = true := by
  cases hi : installsKey i with
  | true => rfl
  | false =>
    obtain ⟨u, hu, hkeep⟩ := exec_keyv_of_not_installsKey s hi
    obtain rfl : t = u := Host.Outcome.next.inj (h.symm.trans hu)
    exact absurd (hs.symm.trans (hkeep ht)) Bool.false_ne_true

/-- The commands that install a key are KEYGEN and KEYLD (R19). -/
theorem keygen_or_keyld_of_installsKey {i : Instr} (h : installsKey i = true) :
    (∃ b : Byte, i = .keygen b) ∨ (∃ a : Byte, i = .keyld a) := by
  cases i with
  | keygen b => exact .inl ⟨b, rfl⟩
  | keyld a => exact .inr ⟨a, rfl⟩
  | _ => cases h

/-! ### Runs of words -/

/-- A state with the same registers differs in the port and the host's lists only (R17). -/
theorem eq_of_sameRegs {s t : State} (h : s.sameRegs t) :
    t = { s with port := t.port, inbox := t.inbox, outbox := t.outbox } := by
  obtain ⟨hkey, hkeyv, hfb, hcnt⟩ := h
  rw [← hkey, ← hkeyv, ← hfb, ← hcnt]

/-- What a run of words answers never depends on the port or on the host's lists, and it leaves the lists (R95). -/
theorem wordRun_host_irrelevant (words : List CmdWord) (s : State) (p : Port) (a : List HostEvent) (b : List RspWord) :
    ∃ q : Port, wordRun words { s with port := p, inbox := a, outbox := b } =
      ((wordRun words s).1, { (wordRun words s).2 with port := q, inbox := a, outbox := b }) := by
  induction words generalizing s p with
  | nil => exact ⟨p, rfl⟩
  | cons cw words ih =>
    obtain ⟨t, r, ht, -, hr⟩ := runWord_answers cw s
    obtain ⟨t', ht', hhost⟩ := runWord_host_irrelevant cw s
    obtain rfl : t = t' := Host.Outcome.next.inj (ht.symm.trans ht')
    obtain ⟨q, hq⟩ := ih t t.port
    exact ⟨q, by rw [wordRun_cons words (hhost p a b) hr, wordRun_cons words ht hr, hq]⟩

/-- A word offered to an idle port and its response taken: accepted, completed and delivered in three steps (R27). -/
theorem run_word {s t : State} {cw : CmdWord} {r : RspWord} {rest : List HostEvent} (n : Nat) (hp : s.port = .idle)
    (hi : s.inbox = .command cw :: .take :: rest) (ht : runWord cw s = .next t) (hr : t.port = .responding r) :
    Host.Core.run core (n + 3) s =
      Host.Core.run core n { t with port := .idle, inbox := rest, outbox := s.outbox ++ [r] } := by
  obtain ⟨t', ht', hhost⟩ := runWord_host_irrelevant cw s
  obtain rfl : t = t' := Host.Outcome.next.inj (ht.symm.trans ht')
  have complete : step { s with port := .accepted cw, inbox := .take :: rest } =
      .next { t with inbox := .take :: rest, outbox := s.outbox } :=
    (step_of_runsNext ⟨rfl, by simp⟩).trans (hhost _ _ _)
  have deliver : step { t with inbox := .take :: rest, outbox := s.outbox } =
      .next { t with port := .idle, inbox := rest, outbox := s.outbox ++ [r] } := step_deliver rfl hr
  exact (run_succ (step_accept hi hp)).trans ((run_succ complete).trans (run_succ deliver))

/-- The state a run of words leaves, once a host that had taken the responses `before` has taken the run's too. -/
def delivered (before : List RspWord) (rest : List HostEvent) (run : List RspWord × State) : State :=
  { run.2 with port := .idle, inbox := rest, outbox := before ++ run.1 }

/-- With the first word's response taken, what is left of a run delivers what the whole run does. -/
theorem delivered_wordRun_cons {cw : CmdWord} {s t : State} {r : RspWord} (words : List CmdWord)
    (before : List RspWord) (events rest : List HostEvent) (ht : runWord cw s = .next t)
    (hr : t.port = .responding r) :
    delivered (before ++ [r]) rest (wordRun words { t with port := .idle, inbox := events, outbox := before ++ [r] }) =
      delivered before rest (wordRun (cw :: words) s) := by
  obtain ⟨q, hq⟩ := wordRun_host_irrelevant words t .idle events (before ++ [r])
  rw [hq, wordRun_cons words ht hr]
  simp [delivered]

/-- A host that transfers words and takes each response has taken, in order, what the words answer (R27, R39). -/
theorem run_wordScript (words : List CmdWord) (s : State) (rest : List HostEvent) (hp : s.port = .idle)
    (hi : s.inbox = wordScript words ++ rest) :
    Host.Core.run core (3 * words.length) s = .next (delivered s.outbox rest (wordRun words s)) := by
  induction words generalizing s with
  | nil =>
    have hrest : s.inbox = rest := hi
    have unchanged : s = delivered s.outbox rest ([], s) := by simp [delivered, ← hp, ← hrest]
    exact congrArg Host.Outcome.next unchanged
  | cons cw words ih =>
    obtain ⟨t, r, ht, -, hr⟩ := runWord_answers cw s
    have hcons := delivered_wordRun_cons words s.outbox (wordScript words ++ rest) rest ht hr
    exact (run_word (3 * words.length) hp hi ht hr).trans
      ((ih _ rfl rfl).trans (congrArg Host.Outcome.next hcons))

/-! ### The obligations -/

/-- Settles O36: with a key the step's bytes are the same for every CNT, and without one it raises E_NOKEY. -/
theorem chainIgnoresCounter : Obligations.ChainIgnoresCounter := by
  intro i s t n hi h
  rcases Bool.eq_false_or_eq_true s.keyv with hk | hk
  · obtain ⟨c, res, hexec⟩ := chainStep_keyed hi hk
    obtain rfl := Host.Outcome.next.inj ((hexec s.cnt).symm.trans h)
    rw [if_pos hk]
    exact hexec n
  · obtain rfl := Host.Outcome.next.inj ((chainStep_keyless hi hk).symm.trans h)
    rw [if_neg (by simp [hk])]
    exact chainStep_keyless (s := { s with cnt := n }) hi hk

/-- Settles O44: what a word does never depends on the port or on the host's lists. -/
theorem stepReadsOnlyRegistersAndWord : Obligations.StepReadsOnlyRegistersAndWord := by
  intro s t cw hsame hs ht
  obtain ⟨u, hu, hhost⟩ := runWord_host_irrelevant cw s
  refine ⟨u, { u with inbox := t.inbox, outbox := t.outbox }, (step_of_runsNext hs).trans hu, ?_,
    ⟨rfl, rfl, rfl, rfl⟩, rfl⟩
  calc step t = runWord cw t := step_of_runsNext ht
    _ = runWord cw { s with port := t.port, inbox := t.inbox, outbox := t.outbox } := by rw [← eq_of_sameRegs hsame]
    _ = .next { u with inbox := t.inbox, outbox := t.outbox } := hhost _ _ _

/-- Settles O45, by what a command and what a transfer can do to KEY. -/
theorem keyChangesOnlyAtSessionStart : Obligations.KeyChangesOnlyAtSessionStart := by
  intro s t h hne
  obtain ⟨u, hu, hcase⟩ := step_cases s
  obtain rfl : t = u := Host.Outcome.next.inj (h.symm.trans hu)
  rcases hcase with ⟨-, heffect⟩ | htransfer
  · exact effect_key_change heffect hne
  · exact transfer_key_change htransfer hne

/-- Settles O46: no transfer and no illegal word sets KEYV, and a command that does is KEYGEN or KEYLD. -/
theorem onlyKeyCommandsInstall : Obligations.OnlyKeyCommandsInstall := by
  refine ⟨fun s t h hs ht => ?_, fun i s t h hs ht =>
    keygen_or_keyld_of_installsKey (installsKey_of_exec_sets_keyv h hs ht)⟩
  obtain ⟨u, hu, hcase⟩ := step_cases s
  obtain rfl : t = u := Host.Outcome.next.inj (h.symm.trans hu)
  rcases hcase with ⟨⟨cw, hr⟩, heffect⟩ | htransfer
  · have hword : runWord cw s = .next t := (step_of_runsNext hr).symm.trans h
    cases hd : decode cw with
    | illegal =>
      obtain rfl := Host.Outcome.next.inj ((runWord_of_illegal hd s).symm.trans hword)
      exact absurd (hs.symm.trans ht) Bool.false_ne_true
    | cmd i =>
      have hexec : exec i s = .next t := (runWord_of_cmd hd s).symm.trans hword
      exact ⟨cw, i, hr, hd, installsKey_of_exec_sets_keyv hexec hs ht, effect_installs_answers_key heffect hs ht⟩
  · exact absurd (hs.symm.trans (keyv_of_transfer htransfer ht)) Bool.false_ne_true

/-- Settles O51, by induction on the words: three steps for each. -/
theorem oneResponsePerCommand : Obligations.OneResponsePerCommand := by
  intro words s u rest answers hp hi hrun
  have hlen := wordRun_length words s
  have hscript := run_wordScript words s rest hp hi
  rw [hrun] at hlen hscript
  exact ⟨hlen, hscript⟩

/-- Settles O50: each clause is the rule of one transfer, or of waiting. -/
theorem commandsAndResponsesTransfer : Obligations.CommandsAndResponsesTransfer :=
  ⟨fun _ _ _ hi hp => step_accept hi hp, fun _ _ _ _ hi hp => step_offer_waits hi hp,
    fun _ _ _ hi hp => step_deliver hi hp, fun _ _ hi hp => step_empty_waits hi (by simp [hp]),
    fun _ _ hi hp => step_take_waits hi hp, fun _ _ hi hp => step_idle_passes hi hp⟩

/-- Settles O53: a reset is taken whatever the port holds. -/
theorem resetDiscardsHeldResponse : Obligations.ResetDiscardsHeldResponse :=
  fun _ _ _ hi _ => step_reset hi

/-- Settles O54: the fields of the reset state as they are defined. -/
theorem resetValues : Obligations.ResetValues := ⟨rfl, rfl, rfl, rfl⟩

end Sys2Proof.Proofs.StateRules
end

section
/-! PROOFS. The side effects of the commands (R38, R76, R77, R118): what a pure command leaves, which commands may be
repeated and which keep the key; then the obligations O42, O43 and O47. -/

namespace Sys2Proof.Proofs.SideEffects

open Sys2Proof Sys2Proof.Machine Sys2Proof.Proofs.StateRules

/-! ### The pure commands -/

/-- A checked operand with a result that reads no state has one response, its result's or the error's, in every state. -/
theorem withOperand_respond {α : Type} (operand : Option α) (e : ErrCode) (res : α → Byte) :
    ∃ r : RspWord, ∀ s : State,
      (.next (s.withOperand operand e fun v => s.respond (res v)) : Host.Outcome State Fault Refusal) =
        .next { s with port := .responding r } := by
  cases operand with
  | some v => exact ⟨okRsp (res v), fun _ => rfl⟩
  | none => exact ⟨errRsp e, fun _ => rfl⟩

/-- A pure command other than RDREG has one response, and in every state it leaves that response only (R38, R76, R77). -/
theorem exec_of_stateless {i : Instr} (hi : pureCommand i = true) (hr : ∀ b : Byte, i ≠ .rdreg b) :
    ∃ r : RspWord, ∀ s : State, exec i s = .next { s with port := .responding r } := by
  cases i with
  | nop | encb | decb => exact ⟨_, fun _ => rfl⟩
  | getbit | setbit | clrbit | rotl | rotr | keycalc => exact withOperand_respond _ _ _
  | rdreg b => exact absurd rfl (hr b)
  | keygen | keyld | enc | dec | crst | kclr => cases hi

/-- RDREG leaves its response only (R94). -/
theorem exec_rdreg (b : Byte) (s : State) :
    ∃ r : RspWord, exec (.rdreg b) s = .next { s with port := .responding r } :=
  (withOperand_respond (selOperand b) .regsel s.readReg).imp fun _ h => h s

/-- A pure command leaves its response only (R38). -/
theorem exec_of_pureCommand {i : Instr} (hi : pureCommand i = true) (s : State) :
    ∃ r : RspWord, exec i s = .next { s with port := .responding r } := by
  by_cases hr : ∃ b : Byte, i = .rdreg b
  · obtain ⟨b, rfl⟩ := hr
    exact exec_rdreg b s
  · obtain ⟨r, h⟩ := exec_of_stateless hi (not_exists.1 hr)
    exact ⟨r, h s⟩

/-- Every command runs after a pure command as before it: only the port differs, and no command reads it (R118). -/
theorem exec_after_pureCommand {i : Instr} {s u : State} (hi : pureCommand i = true) (h : exec i s = .next u)
    (j : Instr) : exec j u = exec j s := by
  obtain ⟨r, hr⟩ := exec_of_pureCommand hi s
  obtain rfl := Host.Outcome.next.inj (hr.symm.trans h)
  exact exec_port_irrelevant j s _

/-! ### Repeated commands, and the key -/

/-- KEYGEN repeated writes the same key again, or raises the same error (R68). -/
theorem exec_keygen_repeated (b : Byte) {s t : State} (h : exec (.keygen b) s = .next t) :
    exec (.keygen b) t = .next t := by
  obtain rfl := Host.Outcome.next.inj h
  simp only [exec, execKeygen]
  cases seedOperand b with
  | some seed => rfl
  | none => rfl

/-- Every command but a chain step leaves, repeated, the same state (R38). -/
theorem exec_repeated {i : Instr} {s t : State} (hi : chainStepOf i = false) (h : exec i s = .next t) :
    exec i t = .next t := by
  cases i with
  | nop | getbit | setbit | clrbit | rotl | rotr | keycalc | encb | decb | rdreg =>
    exact (exec_after_pureCommand rfl h _).trans h
  | keygen b => exact exec_keygen_repeated b h
  | keyld | crst | kclr =>
    obtain rfl := Host.Outcome.next.inj h
    rfl
  | enc | dec => cases hi

/-- A chain step keeps KEY and KEYV, with a key and without one (R82, R83, R104). -/
theorem chainStep_keeps_key {i : Instr} {s t : State} (hi : chainStepOf i = true) (h : exec i s = .next t) :
    t.key = s.key ∧ t.keyv = s.keyv := by
  rcases Bool.eq_false_or_eq_true s.keyv with hk | hk
  · obtain ⟨c, res, hexec⟩ := chainStep_keyed hi hk
    obtain rfl := Host.Outcome.next.inj ((hexec s.cnt).symm.trans h)
    exact ⟨rfl, rfl⟩
  · obtain rfl := Host.Outcome.next.inj ((chainStep_keyless hi hk).symm.trans h)
    exact ⟨rfl, rfl⟩

/-- CRST keeps KEY and KEYV (R84). -/
theorem crst_keeps_key {s t : State} (h : exec .crst s = .next t) : t.key = s.key ∧ t.keyv = s.keyv := by
  obtain rfl := Host.Outcome.next.inj h
  exact ⟨rfl, rfl⟩

/-- A pure command keeps the registers (R38). -/
theorem sameRegs_of_pureCommand {i : Instr} {s t : State} (hi : pureCommand i = true) (h : exec i s = .next t) :
    s.sameRegs t := by
  obtain ⟨r, hr⟩ := exec_of_pureCommand hi s
  obtain rfl := Host.Outcome.next.inj (hr.symm.trans h)
  exact ⟨rfl, rfl, rfl, rfl⟩

/-- No command touches the host's lists (R38). -/
theorem exec_keeps_host {i : Instr} {s t : State} (h : exec i s = .next t) :
    t.inbox = s.inbox ∧ t.outbox = s.outbox := by
  obtain ⟨u, hu, heffect⟩ := exec_effect i s
  obtain rfl : t = u := Host.Outcome.next.inj (h.symm.trans hu)
  exact heffect.host

/-! ### The obligations -/

/-- Settles O42: each column of the table is a lemma of its own. -/
theorem sideEffects : Obligations.SideEffects := fun _ _ _ h =>
  ⟨fun hi => sameRegs_of_pureCommand hi h, fun hi => exec_repeated hi h,
    fun hi => hi.elim (fun hc => chainStep_keeps_key hc h) (fun hc => crst_keeps_key (hc ▸ h)), exec_keeps_host h⟩

/-- Settles O43: the response is the command's own, in both states. -/
theorem statelessCommands : Obligations.StatelessCommands := by
  intro i s t hi hr
  obtain ⟨r, h⟩ := exec_of_stateless hi hr
  exact ⟨_, _, h s, h t, rfl⟩

/-- Settles O47: the command after a pure one runs as without it, and every command answers a next state. -/
theorem pureCommandsMayBeInterleaved : Obligations.PureCommandsMayBeInterleaved := by
  intro i j s u hi h
  obtain ⟨t, ht, -⟩ := exec_effect j s
  exact ⟨t, ht, (exec_after_pureCommand hi h j).trans ht⟩

end Sys2Proof.Proofs.SideEffects
end

section
/-! PROOFS. The command words (R43 to R51): a command is told by its mnemonic and its two fields, so decode and encode undo
each other; then the obligations O2, O3, O4, O1 and O48. -/

namespace Sys2Proof.Proofs.Encoding

open Sys2Proof Sys2Proof.Machine Sys2Proof.Laws

/-! ### A command is its mnemonic and its fields -/

/-- A command's word has the fields of a word of its mnemonic (R43, R46). -/
theorem wordOf_encode (i : Instr) : WordOf i.mnemonic (encode i) := by
  cases i with
  | nop => exact EncodedFields.nop
  | getbit a b => exact EncodedFields.getbit a b
  | setbit a b => exact EncodedFields.setbit a b
  | clrbit a b => exact EncodedFields.clrbit a b
  | rotl a b => exact EncodedFields.rotl a b
  | rotr a b => exact EncodedFields.rotr a b
  | keygen b => exact EncodedFields.keygen b
  | keyld a => exact EncodedFields.keyld a
  | keycalc b => exact EncodedFields.keycalc b
  | encb a b => exact EncodedFields.encb a b
  | decb a b => exact EncodedFields.decb a b
  | enc a => exact EncodedFields.enc a
  | dec a => exact EncodedFields.dec a
  | crst => exact EncodedFields.crst
  | kclr => exact EncodedFields.kclr
  | rdreg b => exact EncodedFields.rdreg b

/-- No operand is lost in the fields of a command (R45). -/
@[simp] theorem ofFields_fields (i : Instr) : Instr.ofFields i.mnemonic i.fieldA i.fieldB = i := by
  cases i <;> rfl

@[simp] theorem mnemonic_ofFields (m : Mnemonic) (a b : Byte) : (Instr.ofFields m a b).mnemonic = m := by
  cases m <;> rfl

/-- Field A is kept when the command uses it, else written as 0x00 (R46). -/
theorem fieldA_ofFields (m : Mnemonic) (a b : Byte) :
    (Instr.ofFields m a b).fieldA = if m.usesA then a else 0x00#8 := by
  cases m <;> rfl

/-- Field B is kept when the command uses it, else written as 0x00 (R46). -/
theorem fieldB_ofFields (m : Mnemonic) (a b : Byte) :
    (Instr.ofFields m a b).fieldB = if m.usesB then b else 0x00#8 := by
  cases m <;> rfl

/-- Writing 0x00 for an unused field changes no field that is 0x00 unless used (R49). -/
theorem ite_used_eq {used : Bool} {b : Byte} (h : used = true ∨ b = 0x00#8) : (if used then b else 0x00#8) = b := by
  rcases h with rfl | rfl <;> simp

/-! ### The fields of a command's word -/

@[simp] theorem opcOf_encode (i : Instr) : opcOf (encode i) = i.mnemonic.opcode := opcOf_mkWord _ _ _
@[simp] theorem rsvOf_encode (i : Instr) : rsvOf (encode i) = 0x00#8 := rsvOf_mkWord _ _ _
@[simp] theorem opB_encode (i : Instr) : opB (encode i) = i.fieldB := opB_mkWord _ _ _
@[simp] theorem opA_encode (i : Instr) : opA (encode i) = i.fieldA := opA_mkWord _ _ _

/-! ### Decode and encode undo each other -/

/-- The word of a command decodes to it (R48, R51). -/
theorem decode_encode (i : Instr) : decode (encode i) = .cmd i :=
  (decode_eq_cmd_iff _ i).2 ⟨i.mnemonic, wordOf_encode i, by simp⟩

/-- A word with the fields of a mnemonic's word is the word of the command they spell (R47, R49). -/
theorem encode_ofFields_of_wordOf {m : Mnemonic} {cw : CmdWord} (h : WordOf m cw) :
    encode (Instr.ofFields m (opA cw) (opB cw)) = cw := by
  obtain ⟨hopc, hrsv, hb, ha⟩ := h
  apply word_ext
  · rw [opcOf_encode, mnemonic_ofFields, hopc]
  · rw [rsvOf_encode, hrsv]
  · rw [opB_encode, fieldB_ofFields, ite_used_eq hb]
  · rw [opA_encode, fieldA_ofFields, ite_used_eq ha]

/-! ### The table has one row for each mnemonic -/

theorem allMnemonics_nodup : allMnemonics.Nodup := by decide

/-- A row of R47's table is told by its mnemonic. -/
theorem row_eq_of_mnemonic_eq {r q : OpRow} (hr : r ∈ opRows) (hq : q ∈ opRows) (h : r.mnemonic = q.mnemonic) : r = q :=
  List.inj_on_of_nodup_map allMnemonics_nodup hr hq h

/-! ### The obligations -/

/-- Settles O2: every well-formed command, for every command has its word (R45). -/
theorem decodeOfEncode : Obligations.DecodeOfEncode := fun i _ => decode_encode i

/-- Settles O3: the word has the fields that the command's mnemonic asks for, and these are the fields of its encoding. -/
theorem encodeOfDecode : Obligations.EncodeOfDecode := by
  intro cw i h
  obtain ⟨m, hm, rfl⟩ := (decode_eq_cmd_iff cw i).1 h
  exact encode_ofFields_of_wordOf hm

/-- Settles O4: both rows test the whole opcode, which tells the mnemonic and so the row. -/
theorem rowsAreDisjoint : Obligations.RowsAreDisjoint := by
  intro cw r q hr hq hrowR hrowQ
  obtain ⟨hopcR, -⟩ := (row_admits_iff cw hr).1 hrowR
  obtain ⟨hopcQ, -⟩ := (row_admits_iff cw hq).1 hrowQ
  exact row_eq_of_mnemonic_eq hr hq (opcode_injective _ _ (hopcR.symm.trans hopcQ))

/-- Settles O1: nine of the words are encodings, and the four others pass no row of the table. -/
theorem sampleWordsDecode : Obligations.SampleWordsDecode :=
  ⟨decode_encode .nop, decode_encode (.getbit 0x8A#8 3#8), decode_encode (.rotl 0x8A#8 2#8), decode_encode (.keygen 5#8),
    decode_encode (.keyld 1#8), decode_encode (.encb 0x8A#8 0xA5#8), decode_encode (.enc 0x41#8), decode_encode .crst,
    decode_encode (.rdreg 1#8), by decide, by decide, by decide, by decide⟩

/-- Settles O48: the word in flight runs, and it is a command's. -/
theorem stepRunsDecodedCommand : Obligations.StepRunsDecodedCommand :=
  fun s _ _ hnext hdecode _ => (step_of_runsNext hnext).trans (runWord_of_cmd hdecode s)

end Sys2Proof.Proofs.Encoding
end

section
/-! PROOFS. The assembler's operands (R51, R52): which values a field takes, and what a mnemonic makes of its operands; then
the obligations O57 and O58. -/

namespace Sys2Proof.Proofs.Assembler

open Sys2Proof Sys2Proof.Machine Sys2Proof.Proofs.Encoding

/-! ### One operand -/

/-- A byte's value is assembled unchanged (R52). -/
theorem asmByte_toNat (b : Byte) : asmByte (b.toNat : Int) = .ok b := by
  have hle : b.toNat ≤ 255 := Nat.le_of_lt_succ b.isLt
  have hrange : (0 : Int) ≤ b.toNat ∧ (b.toNat : Int) ≤ 255 := by omega
  have hbyte : BitVec.ofInt 8 (b.toNat : Int) = b := by simp
  rw [asmByte, if_pos hrange, hbyte]

/-- A value that is taken as a field lies in 0 to 255 (R52). -/
theorem inRange_of_asmByte_ok {v : Int} {b : Byte} (h : asmByte v = .ok b) : 0 ≤ v ∧ v ≤ 255 := by
  by_contra hv
  rw [asmByte, if_neg hv] at h
  cases h

/-- What follows a checked operand runs only when the check passed. -/
theorem ok_of_bind_ok {α β : Type} {x : Except AsmError α} {f : α → Except AsmError β} {y : β} (h : x >>= f = .ok y) :
    ∃ v, x = .ok v ∧ f v = .ok y := by
  cases x with
  | ok v => exact ⟨v, rfl, h⟩
  | error e => cases h

/-! ### The operands of a mnemonic -/

/-- The operands of R51's written form: those of the fields that the mnemonic uses, first A then B. -/
def writtenOperands (m : Mnemonic) (a b : Int) : List Int :=
  (if m.usesA then [a] else []) ++ (if m.usesB then [b] else [])

/-- The operands of the used fields are assembled unchanged, and the unused fields are 0x00 (R51, R52). -/
theorem asmCommand_writtenOperands (m : Mnemonic) (a b : Byte) :
    asmCommand m (writtenOperands m a.toNat b.toNat) =
      .ok (Instr.ofFields m (if m.usesA then a else 0x00#8) (if m.usesB then b else 0x00#8)) := by
  unfold asmCommand writtenOperands
  cases m.usesA <;> cases m.usesB <;> simp [asmByte_toNat, bind, Except.bind, pure, Except.pure]

/-- A missing operand, or one for an unused field, is refused (R52). -/
theorem asmCommand_of_length_ne {m : Mnemonic} {operands : List Int}
    (h : operands.length ≠ m.usesA.toNat + m.usesB.toNat) : asmCommand m operands = .error .operandCount := by
  unfold asmCommand
  split
  case h_1 hA hB | h_2 hA hB | h_3 hA hB | h_4 hA hB => exact absurd (by simp [hA, hB]) h
  case h_5 => rfl

/-- Every operand of an assembled command lies in 0 to 255 (R52). -/
theorem inRange_of_asmCommand_ok {m : Mnemonic} {operands : List Int} {i : Instr} (h : asmCommand m operands = .ok i) :
    ∀ v ∈ operands, 0 ≤ v ∧ v ≤ 255 := by
  unfold asmCommand at h
  split at h
  case h_1 =>
    obtain ⟨_, ha, h⟩ := ok_of_bind_ok h
    obtain ⟨_, hb, -⟩ := ok_of_bind_ok h
    simpa using ⟨inRange_of_asmByte_ok ha, inRange_of_asmByte_ok hb⟩
  case h_2 | h_3 =>
    obtain ⟨_, hv, -⟩ := ok_of_bind_ok h
    simpa using inRange_of_asmByte_ok hv
  case h_4 => exact List.forall_mem_nil _
  case h_5 => cases h

/-! ### A command's own fields -/

/-- The operands of a command's used fields assemble to the command (R51). -/
theorem asmCommand_fields (i : Instr) :
    asmCommand i.mnemonic (writtenOperands i.mnemonic i.fieldA.toNat i.fieldB.toNat) = .ok i := by
  obtain ⟨-, -, hb, ha⟩ := wordOf_encode i
  rw [opB_encode] at hb
  rw [opA_encode] at ha
  rw [asmCommand_writtenOperands, ite_used_eq ha, ite_used_eq hb, ofFields_fields]

/-! ### The obligations -/

/-- Settles O57: an assembled command has its operands in range and one for each used field, so the others are refused. -/
theorem assemblerOperands : Obligations.AssemblerOperands := by
  refine ⟨asmCommand_fields, fun m operands houtside => ?_, fun _ _ => asmCommand_of_length_ne⟩
  obtain ⟨v, hv, hout⟩ := houtside
  cases h : asmCommand m operands with
  | error e => exact ⟨e, rfl⟩
  | ok i =>
    have hrange := inRange_of_asmCommand_ok h v hv
    omega

/-- Settles O58, by running the assembler on each line. -/
theorem sampleLinesAssemble : Obligations.SampleLinesAssemble :=
  ⟨rfl, rfl, rfl, rfl, rfl, rfl, rfl, rfl, rfl, rfl⟩

end Sys2Proof.Proofs.Assembler
end

section
/-! PROOFS. The invariant (R84, R98, R104, R105): what a command and what a transfer keep of it; then the obligation O56. -/

namespace Sys2Proof.Proofs.Invariant

open Sys2Proof Sys2Proof.Machine

/-! ### The responses the CORE makes -/

/-- The response of a completed command is one the CORE can report (R44). -/
@[simp] theorem legalRsp_okRsp (res : Byte) : legalRsp (okRsp res) = true := by
  simp [legalRsp]

/-- The response of an error is one the CORE can report: its code is at most 6 and its RES is 0x00 (R98, R108). -/
@[simp] theorem legalRsp_errRsp (e : ErrCode) : legalRsp (errRsp e) = true := by
  simp [legalRsp, (code_range e).2]

/-- Every command holds a response that the CORE can report (R105). -/
theorem effect_port_legal {s t : State} (h : Effect s t) : ∃ r : RspWord, t.port = .responding r ∧ legalRsp r = true := by
  cases h with
  | raised e => exact ⟨errRsp e, rfl, legalRsp_errRsp e⟩
  | answered | keyWritten | keyDiscarded | sessionStarted | chained => exact ⟨_, rfl, legalRsp_okRsp _⟩

/-! ### Without a key the state is the reset state -/

/-- A command leaves a keyless state the reset state: only a key write sets KEYV, and a chain step needs it (R84, R104). -/
theorem effect_keeps_keyless {s t : State} (h : Effect s t) (hs : s.keylessIsReset) : t.keylessIsReset := by
  cases h with
  | raised | answered => exact hs
  | keyWritten => exact nofun
  | keyDiscarded => exact fun _ => ⟨rfl, rfl, rfl⟩
  | sessionStarted =>
    intro hkeyv
    obtain ⟨hkey, -, -⟩ := hs hkeyv
    exact ⟨hkey, rfl, rfl⟩
  | chained c res hk => exact fun hkeyv => absurd (hkeyv.symm.trans hk) Bool.false_ne_true

/-- A transfer changes no register, but for a reset, which resets them all (R113). -/
theorem transfer_keeps_keyless {s t : State} (h : Transfer s t) (hs : s.keylessIsReset) : t.keylessIsReset := by
  cases h with
  | reset => exact fun _ => ⟨rfl, rfl, rfl⟩
  | accept | deliver | pass | wait => exact hs

/-! ### Every response is legal -/

/-- A command leaves the responses taken as they are, and holds a legal one (R105). -/
theorem effect_keeps_legal {s t : State} (h : Effect s t) (hs : s.responsesLegal) : t.responsesLegal := by
  obtain ⟨-, htaken⟩ := hs
  obtain ⟨r, hport, hr⟩ := effect_port_legal h
  obtain ⟨-, houtbox⟩ := h.host
  refine ⟨fun q hq => ?_, houtbox ▸ htaken⟩
  obtain rfl : r = q := Port.responding.inj (hport.symm.trans hq)
  exact hr

/-- A transfer makes no response: it keeps the held one, delivers it, or leaves none (R27, R113). -/
theorem transfer_keeps_legal {s t : State} (h : Transfer s t) (hs : s.responsesLegal) : t.responsesLegal := by
  obtain ⟨hheld, htaken⟩ := hs
  cases h with
  | reset | accept => exact ⟨nofun, htaken⟩
  | deliver r hport =>
    refine ⟨nofun, fun q hq => ?_⟩
    rcases List.mem_append.1 hq with hq | hq
    · exact htaken q hq
    · exact List.mem_singleton.1 hq ▸ hheld r hport
  | pass | wait => exact ⟨hheld, htaken⟩

/-! ### The obligation -/

/-- Settles O56: a step is a command's effect or a transfer, and each keeps both parts of the invariant. -/
theorem invariantKept : Obligations.InvariantKept := by
  intro s t ⟨hkeyless, hlegal⟩ hstep
  obtain ⟨u, hu, hcase⟩ := step_cases s
  obtain rfl : t = u := Host.Outcome.next.inj (hstep.symm.trans hu)
  rcases hcase with ⟨-, heffect⟩ | htransfer
  · exact ⟨effect_keeps_keyless heffect hkeyless, effect_keeps_legal heffect hlegal⟩
  · exact ⟨transfer_keeps_keyless htransfer hkeyless, transfer_keeps_legal htransfer hlegal⟩

end Sys2Proof.Proofs.Invariant
end

section
/-! PROOFS. What the statements about single commands share: the words of a command by R47's match and mask, a stray RSV
(R49), and the result of a command that completes (R95). -/

namespace Sys2Proof.Proofs.CommandClauses

open Sys2Proof Sys2Proof.Machine Sys2Proof.Proofs.Encoding

/-! ### The words of a command -/

/-- A row's match and mask test the fields that its mnemonic asks for (R47). -/
theorem masked_eq_pattern_iff_wordOf (cw : CmdWord) {r : OpRow} (hr : r ∈ opRows) :
    cw &&& r.mask = r.pattern ↔ WordOf r.mnemonic cw :=
  beq_iff_eq.symm.trans (row_admits_iff cw hr)

/-- A word decodes to a command exactly when it passes the command's row and spells its operands (R47, R48). -/
theorem decode_eq_cmd_iff_masked (cw : CmdWord) {r : OpRow} (hr : r ∈ opRows) {i : Instr} (hi : i.mnemonic = r.mnemonic) :
    decode cw = .cmd i ↔ cw &&& r.mask = r.pattern ∧ i = Instr.ofFields i.mnemonic (opA cw) (opB cw) := by
  rw [masked_eq_pattern_iff_wordOf cw hr, ← hi, decode_eq_cmd_iff]
  constructor
  · rintro ⟨m, hm, rfl⟩
    simpa using hm
  · exact fun ⟨hword, hfields⟩ => ⟨_, hword, hfields⟩

/-- A command that uses both operand fields is told by them. -/
theorem eq_ofFields_iff {i : Instr} (hA : i.mnemonic.usesA = true) (hB : i.mnemonic.usesB = true) (a b : Byte) :
    i = Instr.ofFields i.mnemonic a b ↔ i.fieldA = a ∧ i.fieldB = b := by
  constructor
  · intro h
    have ha := congrArg Instr.fieldA h
    have hb := congrArg Instr.fieldB h
    rw [fieldA_ofFields, if_pos hA] at ha
    rw [fieldB_ofFields, if_pos hB] at hb
    exact ⟨ha, hb⟩
  · rintro ⟨rfl, rfl⟩
    exact (ofFields_fields i).symm

/-- The words of a command that uses both operand fields: those of its row's match and mask, with its operands in the
fields A and B (R46, R47). -/
theorem decode_eq_two_operand_cmd_iff (cw : CmdWord) {r : OpRow} (hr : r ∈ opRows) {i : Instr}
    (hi : i.mnemonic = r.mnemonic) (hA : i.mnemonic.usesA = true) (hB : i.mnemonic.usesB = true) :
    decode cw = .cmd i ↔ cw &&& r.mask = r.pattern ∧ i.fieldA = opA cw ∧ i.fieldB = opB cw := by
  rw [decode_eq_cmd_iff_masked cw hr hi, eq_ofFields_iff hA hB]

/-! ### Words that are no command -/

/-- A word with a nonzero RSV is Illegal, whatever its opcode (R49). -/
theorem decode_eq_illegal_of_rsv_ne {cw : CmdWord} (h : rsvOf cw ≠ 0#8) : decode cw = .illegal :=
  (decode_eq_illegal_iff cw).2 fun _ ⟨_, hrsv, _⟩ => h hrsv

/-- An Illegal word in flight is answered E_ILLEGAL, and nothing else changes (R99, R108). -/
theorem step_of_illegal {s : State} {cw : CmdWord} (hnext : s.runsNext cw) (h : decode cw = .illegal) :
    step s = .next { s with port := .responding 0x100#12 } :=
  (step_of_runsNext hnext).trans (runWord_of_illegal h s)

/-! ### Checked operands and results -/

/-- A command whose operand passes its check runs on it. -/
theorem withOperand_of_some {α : Type} {operand : Option α} {v : α} (h : operand = some v) (s : State) (e : ErrCode)
    (run : α → State) : s.withOperand operand e run = run v := by
  rw [h, withOperand_some]

/-- A command whose operand fails its check raises its error (R108). -/
theorem withOperand_of_none {α : Type} {operand : Option α} (h : operand = none) (s : State) (e : ErrCode)
    (run : α → State) : s.withOperand operand e run = s.raiseError e := by
  rw [h, withOperand_none]

/-- A command that completes writes ERR = 0 and its result to the response, and nothing else (R44, R95). -/
theorem respond_eq (s : State) (res : Byte) : s.respond res = { s with port := .responding (0x0#4 ++ res) } := rfl

/-- The result of a command that completes with this response (R95). -/
theorem answer_of_respond {i : Instr} {s t : State} {res : Byte} (h : exec i s = .next (t.respond res)) :
    answer i s = some res := by
  simp [answer, h]

end Sys2Proof.Proofs.CommandClauses
end

section
/-! PROOFS. BitField: the document's laws of getBit, setBit and clearBit (R58), what GETBIT, SETBIT and CLRBIT do and answer
(R55 to R57); then the obligations O6, O7, O8 and O9. -/

namespace Sys2Proof.Proofs.BitField

open Sys2Proof Sys2Proof.Machine Sys2Proof.Proofs.CommandClauses

/-! ### The functions, with the shift written out (R54) -/

theorem setBit_eq (b : Byte) (pos : BitPos) : setBit b pos = b ||| (1#8 <<< pos.val) := rfl
theorem clearBit_eq (b : Byte) (pos : BitPos) : clearBit b pos = b &&& ~~~(1#8 <<< pos.val) := rfl

/-! ### The laws of R58, of the functions -/

section Functions

variable (b : Byte) {p q : BitPos}

theorem setBit_getLsbD_of_ne {j : Nat} (h : j ≠ p.val) : (setBit b p).getLsbD j = b.getLsbD j := by
  simp [setBit_getLsbD, h]

theorem clearBit_getLsbD_of_ne {j : Nat} (h : j ≠ p.val) : (clearBit b p).getLsbD j = b.getLsbD j := by
  simp [clearBit_getLsbD, h]

theorem getBit_setBit_same : getBit (setBit b p) p = true := by
  rw [getBit_eq, setBit_getLsbD, decide_eq_true rfl, Bool.or_true]

theorem getBit_clearBit_same : getBit (clearBit b p) p = false := by
  rw [getBit_eq, clearBit_getLsbD, decide_eq_true rfl, Bool.not_true, Bool.and_false]

theorem getBit_setBit_of_ne (h : q ≠ p) : getBit (setBit b p) q = getBit b q :=
  setBit_getLsbD_of_ne b (Fin.val_ne_of_ne h)

theorem getBit_clearBit_of_ne (h : q ≠ p) : getBit (clearBit b p) q = getBit b q :=
  clearBit_getLsbD_of_ne b (Fin.val_ne_of_ne h)

/-- Forcing a bit to 1 undoes any write of that bit before it: only the other bits must agree. -/
theorem setBit_eq_of_eq_off {x y : Byte} (h : ∀ j : Nat, j ≠ p.val → x.getLsbD j = y.getLsbD j) :
    setBit x p = setBit y p := by
  refine BitVec.eq_of_getLsbD_eq fun j _ => ?_
  rw [setBit_getLsbD, setBit_getLsbD]
  by_cases hj : j = p.val
  · simp [hj]
  · rw [h j hj]

/-- Forcing a bit to 0 undoes any write of that bit before it: only the other bits must agree. -/
theorem clearBit_eq_of_eq_off {x y : Byte} (h : ∀ j : Nat, j ≠ p.val → x.getLsbD j = y.getLsbD j) :
    clearBit x p = clearBit y p := by
  refine BitVec.eq_of_getLsbD_eq fun j _ => ?_
  rw [clearBit_getLsbD, clearBit_getLsbD]
  by_cases hj : j = p.val
  · simp [hj]
  · rw [h j hj]

theorem setBit_setBit : setBit (setBit b p) p = setBit b p := setBit_eq_of_eq_off fun _ => setBit_getLsbD_of_ne b
theorem setBit_clearBit : setBit (clearBit b p) p = setBit b p := setBit_eq_of_eq_off fun _ => clearBit_getLsbD_of_ne b
theorem clearBit_clearBit : clearBit (clearBit b p) p = clearBit b p :=
  clearBit_eq_of_eq_off fun _ => clearBit_getLsbD_of_ne b
theorem clearBit_setBit : clearBit (setBit b p) p = clearBit b p := clearBit_eq_of_eq_off fun _ => setBit_getLsbD_of_ne b

end Functions

/-! ### One bit as a byte, and a byte as the sum of its bits -/

/-- One bit zero-extended is the byte 1 or 0 (R12). -/
theorem zext8_eq_ite (v : Bool) : zext8 v = if v then 0x01#8 else 0x00#8 := by
  cases v <;> rfl

theorem toNat_zext8 (v : Bool) : (zext8 v).toNat = v.toNat := by
  cases v <;> rfl

/-- The low `n` bits of a number, each times its power of two, sum to the number modulo 2^n. -/
theorem sum_testBit_mul_two_pow (x n : Nat) :
    ((List.range n).map fun i => (x.testBit i).toNat * 2 ^ i).sum = x % 2 ^ n := by
  induction n with
  | zero => simp [Nat.mod_one]
  | succ n ih =>
    rw [List.range_succ, List.map_append, List.sum_append, ih, Nat.mod_pow_succ]
    simp [Nat.toNat_testBit, Nat.mul_comm]

/-- A byte is the sum of its bits (R58). -/
theorem sum_bits (b : Byte) : ((List.range 8).map fun i => (b.getLsbD i).toNat * 2 ^ i).sum = b.toNat :=
  (sum_testBit_mul_two_pow b.toNat 8).trans (Nat.mod_eq_of_lt b.isLt)

/-! ### The position operand -/

/-- A byte up to 7 is the position of its own value (R45). -/
theorem posOperand_of_le {b : Byte} (h : b.toNat ≤ 7) : posOperand b = some ⟨b.toNat, Nat.lt_succ_of_le h⟩ := index8_of_le h

/-- A byte above 7 is no position: it is not reduced modulo 8 (R55, R100). -/
theorem posOperand_of_gt {b : Byte} (h : 7 < b.toNat) : posOperand b = none := index8_of_gt h

/-- Every position is the operand of its own number. -/
theorem posOperand_ofNat (pos : BitPos) : posOperand (BitVec.ofNat 8 pos.val) = some pos := by
  have hval : (BitVec.ofNat 8 pos.val).toNat = pos.val := by
    rw [BitVec.toNat_ofNat]
    omega
  rw [posOperand_of_le (by omega)]
  exact congrArg some (Fin.ext hval)

/-! ### What the commands do, and what they answer -/

section Commands

variable (a : Byte) {b : Byte} {pos : BitPos} (s : State)

theorem exec_getbit_of_position (h : posOperand b = some pos) :
    exec (.getbit a b) s = .next (s.respond (zext8 (getBit a pos))) := congrArg _ (withOperand_of_some h s _ _)

theorem exec_setbit_of_position (h : posOperand b = some pos) :
    exec (.setbit a b) s = .next (s.respond (setBit a pos)) := congrArg _ (withOperand_of_some h s _ _)

theorem exec_clrbit_of_position (h : posOperand b = some pos) :
    exec (.clrbit a b) s = .next (s.respond (clearBit a pos)) := congrArg _ (withOperand_of_some h s _ _)

theorem answer_getbit (h : posOperand b = some pos) : answer (.getbit a b) s = some (zext8 (getBit a pos)) :=
  answer_of_respond (exec_getbit_of_position a s h)

theorem answer_setbit (h : posOperand b = some pos) : answer (.setbit a b) s = some (setBit a pos) :=
  answer_of_respond (exec_setbit_of_position a s h)

theorem answer_clrbit (h : posOperand b = some pos) : answer (.clrbit a b) s = some (clearBit a pos) :=
  answer_of_respond (exec_clrbit_of_position a s h)

/-- A command on a position raises E_BITPOS for an operand above 7, and only the response changes (R100, R108). -/
theorem withPosition_of_gt (h : 7 < b.toNat) (run : BitPos → State) :
    s.withOperand (posOperand b) .bitpos run = { s with port := .responding 0x200#12 } :=
  withOperand_of_none (posOperand_of_gt h) s _ _

/-- What GETBIT answers at the positions 0 to 7, weighted, sums to the byte (R58). -/
theorem sum_answer_getbit :
    ((List.range 8).map fun i => ((answer (.getbit a (BitVec.ofNat 8 i)) s).getD 0xFF#8).toNat * 2 ^ i).sum = a.toNat := by
  rw [← sum_bits a]
  refine congrArg List.sum (List.map_congr_left fun i hi => ?_)
  rw [answer_getbit a s (posOperand_ofNat ⟨i, List.mem_range.1 hi⟩), Option.getD_some, toNat_zext8, getBit_eq]

end Commands

/-! ### The obligations -/

/-- Settles O6: the row's match and mask, the stray RSV, and the two outcomes of the position's check. -/
theorem getbitCommand : Obligations.GetbitCommand :=
  ⟨fun cw _ _ => decode_eq_two_operand_cmd_iff cw (r := ⟨.getbit, 0x01000000#32, 0xFFFF0000#32⟩) (by decide) rfl rfl rfl,
    fun _ _ hnext _ hrsv => step_of_illegal hnext (decode_eq_illegal_of_rsv_ne hrsv),
    fun a _ s hle => by
      rw [exec_getbit_of_position a s (posOperand_of_le hle), respond_eq, zext8_eq_ite, getBit_eq],
    fun _ _ s hgt => congrArg _ (withPosition_of_gt s hgt _)⟩

/-- Settles O7: as O6, with the byte whose bit is forced to 1. -/
theorem setbitCommand : Obligations.SetbitCommand :=
  ⟨fun cw _ _ => decode_eq_two_operand_cmd_iff cw (r := ⟨.setbit, 0x02000000#32, 0xFFFF0000#32⟩) (by decide) rfl rfl rfl,
    fun _ _ hnext _ hrsv => step_of_illegal hnext (decode_eq_illegal_of_rsv_ne hrsv),
    fun a _ s hle => by
      rw [exec_setbit_of_position a s (posOperand_of_le hle), respond_eq, setBit_eq],
    fun _ _ s hgt => congrArg _ (withPosition_of_gt s hgt _)⟩

/-- Settles O8: as O6, with the byte whose bit is forced to 0. -/
theorem clrbitCommand : Obligations.ClrbitCommand :=
  ⟨fun cw _ _ => decode_eq_two_operand_cmd_iff cw (r := ⟨.clrbit, 0x03000000#32, 0xFFFF0000#32⟩) (by decide) rfl rfl rfl,
    fun _ _ hnext _ hrsv => step_of_illegal hnext (decode_eq_illegal_of_rsv_ne hrsv),
    fun a _ s hle => by
      rw [exec_clrbit_of_position a s (posOperand_of_le hle), respond_eq, clearBit_eq],
    fun _ _ s hgt => congrArg _ (withPosition_of_gt s hgt _)⟩

/-- Settles O9: the commands answer what the functions give, so each clause is a law of the functions. -/
theorem bitFieldLaws : Obligations.BitFieldLaws := by
  intro s a p q hp hq hne
  have hP := posOperand_of_le hp
  have hQ := posOperand_of_le hq
  have hother : (⟨q.toNat, Nat.lt_succ_of_le hq⟩ : BitPos) ≠ ⟨p.toNat, Nat.lt_succ_of_le hp⟩ :=
    fun h => hne (BitVec.eq_of_toNat_eq (Fin.mk.inj h).symm)
  refine ⟨_, _, answer_setbit a s hP, answer_clrbit a s hP, ?_, ?_, ?_, ?_, ?_, ?_, ?_, ?_, sum_answer_getbit a s⟩
  · rw [answer_getbit _ s hP, getBit_setBit_same, zext8_eq_ite, if_pos rfl]
  · rw [answer_getbit _ s hP, getBit_clearBit_same, zext8_eq_ite, if_neg Bool.false_ne_true]
  · rw [answer_getbit _ s hQ, answer_getbit _ s hQ, getBit_setBit_of_ne a hother]
  · rw [answer_getbit _ s hQ, answer_getbit _ s hQ, getBit_clearBit_of_ne a hother]
  · rw [answer_setbit _ s hP, setBit_setBit]
  · rw [answer_clrbit _ s hP, clearBit_clearBit]
  · rw [answer_setbit _ s hP, setBit_clearBit]
  · rw [answer_clrbit _ s hP, clearBit_setBit]

end Sys2Proof.Proofs.BitField
end

section
/-! PROOFS. CircularRotate: each bit of a rotation is one bit of its source (R60), from which come the closed forms (R60)
and the laws of R63; what ROTL and ROTR do and answer (R61, R62); then the obligations O10, O11, O12 and O13. -/

namespace Sys2Proof.Proofs.Rotate

open Sys2Proof Sys2Proof.Machine Sys2Proof.Proofs.CommandClauses

/-! ### The bits of shifts and of the loop

Sums and differences of positions are those of `BitPos`, so modulo 8. A shift by `n` keeps one part of the rotated byte,
and what the shift drops is the other part, which the loop of R59 and the second shift of R60 each put back. -/

section Bits

variable (b : Byte) (n i : BitPos)

/-- The left shift keeps the bits of the left rotation at `n` and above. -/
theorem shiftLeft_bit : (b <<< n.val).getLsbD i.val = (!decide (i < n) && b.getLsbD (i - n).val) := by
  rw [BitVec.getLsbD_shiftLeft, decide_eq_true i.isLt, Bool.true_and]
  rcases lt_or_ge i n with h | h
  · simp [h]
  · simp only [Fin.coe_sub_iff_le.2 h, Fin.lt_def]

/-- The right shift by the complement gives the bits of the left rotation below `n`. -/
theorem ushiftRight_complement_bit :
    (b >>> (8 - n.val)).getLsbD i.val = (decide (i < n) && b.getLsbD (i - n).val) := by
  rw [BitVec.getLsbD_ushiftRight]
  rcases lt_or_ge i n with h | h
  · rw [decide_eq_true h, Bool.true_and, Fin.coe_sub_iff_lt.2 h]
    congr 1
    omega
  · rw [decide_eq_false (not_lt.2 h), Bool.false_and]
    have hle : n.val ≤ i.val := h
    exact BitVec.getLsbD_of_ge _ _ (by omega)

/-- A sum of positions wraps past 7 exactly when it comes out below its second part. -/
theorem add_lt_right_iff : i + n < n ↔ 8 ≤ i.val + n.val := by
  rw [Fin.lt_def, Fin.val_add]
  omega

/-- The right shift keeps the bits of the right rotation whose source is not past bit 7. -/
theorem ushiftRight_bit : (b >>> n.val).getLsbD i.val = (!decide (i + n < n) && b.getLsbD (i + n).val) := by
  rw [BitVec.getLsbD_ushiftRight, decide_eq_decide.2 (add_lt_right_iff n i), Fin.val_add, Nat.add_comm]
  by_cases h : 8 ≤ i.val + n.val
  · rw [decide_eq_true h, Bool.not_true, Bool.false_and]
    exact BitVec.getLsbD_of_ge _ _ h
  · rw [decide_eq_false h, Bool.not_false, Bool.true_and, Nat.mod_eq_of_lt (not_le.1 h)]

/-- The left shift by the complement gives the bits of the right rotation whose source wraps past bit 7. -/
theorem shiftLeft_complement_bit :
    (b <<< (8 - n.val)).getLsbD i.val = (decide (i + n < n) && b.getLsbD (i + n).val) := by
  rw [BitVec.getLsbD_shiftLeft, decide_eq_true i.isLt, Bool.true_and, decide_eq_decide.2 (add_lt_right_iff n i),
    Fin.val_add]
  by_cases h : 8 ≤ i.val + n.val
  · rw [decide_eq_true h, Bool.true_and, decide_eq_false (by omega), Bool.not_false, Bool.true_and]
    congr 1
    omega
  · rw [decide_eq_false h, Bool.false_and, decide_eq_true (by omega), Bool.not_true, Bool.false_and]

/-- Two parts of a byte, told apart by one condition, make up the byte's bit. -/
theorem not_and_or_and (c v : Bool) : ((!c && v) || (c && v)) = v := by
  cases c <;> simp

/-- The indexes below `n`. -/
theorem mem_below (k : BitPos) : k ∈ below n ↔ k < n := by
  have hmem : k ∈ bitPositions := by
    revert k
    decide
  simp [below, hmem]

/-- The index whose captured bit goes to position `i` in the left rotation is below `n` exactly when `i` is. -/
theorem captured_lt_iff : n - 1 - i < n ↔ i < n := by
  revert n i
  decide

/-- A loop over the indexes below `n` with one destination for each index sets the destination of `k` exactly when `k` is
below `n` and passes the test. -/
theorem setWhere_below_bit {dest : BitPos → BitPos} (hdest : dest.Injective) (test : BitPos → Bool) (k : BitPos) :
    (setWhere b (below n) test dest).getLsbD (dest k).val =
      (b.getLsbD (dest k).val || (decide (k < n) && test k)) := by
  rw [setWhere_getLsbD]
  congr 1
  rw [Bool.eq_iff_iff, List.any_eq_true, Bool.and_eq_true, decide_eq_true_iff]
  constructor
  · rintro ⟨l, hl, h⟩
    rw [Bool.and_eq_true, decide_eq_true_iff] at h
    obtain ⟨htest, hval⟩ := h
    obtain rfl : k = l := hdest (Fin.ext hval)
    exact ⟨(mem_below n k).1 hl, htest⟩
  · rintro ⟨hk, htest⟩
    exact ⟨k, (mem_below n k).2 hk, by simp [htest]⟩

end Bits

/-! ### Each bit of a rotation is one bit of the source (R60) -/

section Rotations

variable (b : Byte) (m n i : BitPos)

theorem rotateLeft_bit : (rotateLeft b n).getLsbD i.val = b.getLsbD (i - n).val := by
  have hdest : (fun k : BitPos => n - 1 - k).Injective := fun _ _ h => sub_right_injective h
  have hloop := setWhere_below_bit (b <<< n.val) n hdest (fun k => getBit b (7 - k)) (n - 1 - i)
  have hsource : (7 : BitPos) - (n - 1 - i) = i - n := by
    rw [show (7 : BitPos) = -1 from rfl]
    abel
  simp only [sub_sub_cancel, hsource, captured_lt_iff, shiftLeft_bit, getBit_eq, not_and_or_and] at hloop
  exact hloop

theorem rotateRight_bit : (rotateRight b n).getLsbD i.val = b.getLsbD (i + n).val := by
  have hdest : (fun k : BitPos => k - n).Injective := sub_left_injective
  have hloop := setWhere_below_bit (b >>> n.val) n hdest (getBit b) (i + n)
  simp only [add_sub_cancel_right, ushiftRight_bit, getBit_eq, not_and_or_and] at hloop
  exact hloop

theorem rotlForm_bit : (rotlForm b n.val).getLsbD i.val = b.getLsbD (i - n).val := by
  rw [rotlForm, BitVec.getLsbD_or, shiftLeft_bit, ushiftRight_complement_bit, not_and_or_and]

theorem rotrForm_bit : (rotrForm b n.val).getLsbD i.val = b.getLsbD (i + n).val := by
  rw [rotrForm, BitVec.getLsbD_or, ushiftRight_bit, shiftLeft_complement_bit, not_and_or_and]

/-- Two bytes with the same bit at every position are the same byte (R11). -/
theorem byte_ext {x y : Byte} (h : ∀ i : BitPos, x.getLsbD i.val = y.getLsbD i.val) : x = y :=
  BitVec.eq_of_getLsbD_eq fun i hi => h ⟨i, hi⟩

/-- The loop of R59 is the closed form of R60, to the left. -/
theorem rotateLeft_eq_rotlForm : rotateLeft b n = rotlForm b n.val :=
  byte_ext fun i => (rotateLeft_bit b n i).trans (rotlForm_bit b n i).symm

/-- The loop of R59 is the closed form of R60, to the right. -/
theorem rotateRight_eq_rotrForm : rotateRight b n = rotrForm b n.val :=
  byte_ext fun i => (rotateRight_bit b n i).trans (rotrForm_bit b n i).symm

/-! ### The laws of R63, of the functions -/

theorem rotateRight_rotateLeft : rotateRight (rotateLeft b n) n = b :=
  byte_ext fun i => by rw [rotateRight_bit, rotateLeft_bit, add_sub_cancel_right]

theorem rotateLeft_rotateRight : rotateLeft (rotateRight b n) n = b :=
  byte_ext fun i => by rw [rotateLeft_bit, rotateRight_bit, sub_add_cancel]

/-- A rotation to the right is one to the left by the complement of its amount. -/
theorem rotateRight_neg : rotateRight b (-n) = rotateLeft b n :=
  byte_ext fun i => by rw [rotateRight_bit, rotateLeft_bit, sub_eq_add_neg]

theorem rotateLeft_rotateLeft : rotateLeft (rotateLeft b m) n = rotateLeft b (m + n) :=
  byte_ext fun i => by rw [rotateLeft_bit, rotateLeft_bit, rotateLeft_bit, sub_sub, add_comm]

/-- A permutation of a byte's bits keeps their number (R12). -/
theorem popcount_eq_of_perm {x y : Byte} (σ : Equiv.Perm BitPos) (h : ∀ i, x.getLsbD i.val = y.getLsbD (σ i).val) :
    popcount x = popcount y := by
  have hcount (z : Byte) : popcount z = (List.finRange 8).countP fun i => z.getLsbD i.val := by
    rw [popcount, ← List.map_coe_finRange_eq_range, List.countP_map]
    rfl
  calc popcount x = (List.finRange 8).countP fun i => y.getLsbD (σ i).val := by simp only [hcount, h]
    _ = ((List.finRange 8).map σ).countP fun i => y.getLsbD i.val := List.countP_map.symm
    _ = (List.finRange 8).countP fun i => y.getLsbD i.val := σ.map_finRange_perm.countP_eq _
    _ = popcount y := (hcount y).symm

theorem popcount_rotateLeft : popcount (rotateLeft b n) = popcount b :=
  popcount_eq_of_perm (Equiv.subRight n) (rotateLeft_bit b n)

theorem popcount_rotateRight : popcount (rotateRight b n) = popcount b :=
  popcount_eq_of_perm (Equiv.addRight n) (rotateRight_bit b n)

end Rotations

/-! ### The amount operand -/

/-- A byte up to 7 is the amount of its own value (R45). -/
theorem rotOperand_of_le {b : Byte} (h : b.toNat ≤ 7) : rotOperand b = some ⟨b.toNat, Nat.lt_succ_of_le h⟩ := index8_of_le h

/-- A byte above 7 is no amount: it is not reduced modulo 8 (R61, R62, R101). -/
theorem rotOperand_of_gt {b : Byte} (h : 7 < b.toNat) : rotOperand b = none := index8_of_gt h

/-- Every amount is the operand of its own number, by the same check as a position's. -/
theorem rotOperand_ofNat (n : BitPos) : rotOperand (BitVec.ofNat 8 n.val) = some n := BitField.posOperand_ofNat n

/-- The operand 8 - n, for an amount other than 0, is the amount opposite to n modulo 8 (R63). -/
theorem rotOperand_complement {b : Byte} (hlow : 1 ≤ b.toNat) (hhigh : b.toNat ≤ 7) :
    rotOperand (8#8 - b) = some (-⟨b.toNat, Nat.lt_succ_of_le hhigh⟩) := by
  have hval : (8#8 - b).toNat = 8 - b.toNat := by
    rw [BitVec.toNat_sub, BitVec.toNat_ofNat]
    omega
  rw [rotOperand_of_le (by omega)]
  refine congrArg some (Fin.ext ?_)
  rw [Fin.val_neg']
  exact hval.trans (Nat.mod_eq_of_lt (show 8 - b.toNat < 8 by omega)).symm

/-! ### What the commands do, and what they answer -/

section Commands

variable (a : Byte) {b : Byte} {n : BitPos} (s : State)

theorem exec_rotl_of_amount (h : rotOperand b = some n) : exec (.rotl a b) s = .next (s.respond (rotateLeft a n)) :=
  congrArg _ (withOperand_of_some h s _ _)

theorem exec_rotr_of_amount (h : rotOperand b = some n) : exec (.rotr a b) s = .next (s.respond (rotateRight a n)) :=
  congrArg _ (withOperand_of_some h s _ _)

theorem answer_rotl (h : rotOperand b = some n) : answer (.rotl a b) s = some (rotateLeft a n) :=
  answer_of_respond (exec_rotl_of_amount a s h)

theorem answer_rotr (h : rotOperand b = some n) : answer (.rotr a b) s = some (rotateRight a n) :=
  answer_of_respond (exec_rotr_of_amount a s h)

/-- A command on an amount raises E_ROTAMT for an operand above 7, and only the response changes (R101, R108). -/
theorem withAmount_of_gt (h : 7 < b.toNat) (run : BitPos → State) :
    s.withOperand (rotOperand b) .rotamt run = { s with port := .responding 0x300#12 } :=
  withOperand_of_none (rotOperand_of_gt h) s _ _

end Commands

/-! ### The obligations -/

/-- Settles O10: the row's match and mask, the stray RSV, and the two outcomes of the amount's check. -/
theorem rotlCommand : Obligations.RotlCommand :=
  ⟨fun cw _ _ => decode_eq_two_operand_cmd_iff cw (r := ⟨.rotl, 0x10000000#32, 0xFFFF0000#32⟩) (by decide) rfl rfl rfl,
    fun _ _ hnext _ hrsv => step_of_illegal hnext (decode_eq_illegal_of_rsv_ne hrsv),
    fun a _ s hle => by
      rw [exec_rotl_of_amount a s (rotOperand_of_le hle), respond_eq, rotateLeft_eq_rotlForm],
    fun _ _ s hgt => congrArg _ (withAmount_of_gt s hgt _)⟩

/-- Settles O11: as O10, with the rotation to the right. -/
theorem rotrCommand : Obligations.RotrCommand :=
  ⟨fun cw _ _ => decode_eq_two_operand_cmd_iff cw (r := ⟨.rotr, 0x11000000#32, 0xFFFF0000#32⟩) (by decide) rfl rfl rfl,
    fun _ _ hnext _ hrsv => step_of_illegal hnext (decode_eq_illegal_of_rsv_ne hrsv),
    fun a _ s hle => by
      rw [exec_rotr_of_amount a s (rotOperand_of_le hle), respond_eq, rotateRight_eq_rotrForm],
    fun _ _ s hgt => congrArg _ (withAmount_of_gt s hgt _)⟩

/-- Settles O12: the loops by their closed forms, and the commands' results bit by bit, with the positions' sums and
differences modulo 8 written out. -/
theorem rotationClosedForms : Obligations.RotationClosedForms := by
  refine ⟨fun b n => ⟨rotateLeft_eq_rotlForm b n, rotateRight_eq_rotrForm b n⟩, fun s a n i hn hi => ?_⟩
  have hN := rotOperand_of_le hn
  have hleft := rotateLeft_bit a ⟨n.toNat, Nat.lt_succ_of_le hn⟩ ⟨i, Nat.lt_succ_of_le hi⟩
  have hright := rotateRight_bit a ⟨n.toNat, Nat.lt_succ_of_le hn⟩ ⟨i, Nat.lt_succ_of_le hi⟩
  refine ⟨_, _, answer_rotl a s hN, answer_rotr a s hN, ?_, hright⟩
  rw [hleft, Fin.val_sub]
  congr 2
  dsimp only
  omega

/-- Settles O13: the commands answer what the functions give, so each clause is a law of the functions. -/
theorem rotationLaws : Obligations.RotationLaws := by
  intro s a m n hm hn
  have hM := rotOperand_of_le hm
  have hN := rotOperand_of_le hn
  refine ⟨_, _, answer_rotl a s hN, answer_rotr a s hN, ?_, ?_, popcount_rotateLeft a _, popcount_rotateRight a _, ?_,
    _, answer_rotl a s hM, ?_⟩
  · rw [answer_rotr _ s hN, rotateRight_rotateLeft]
  · rw [answer_rotl _ s hN, rotateLeft_rotateRight]
  · intro hpos
    rw [answer_rotr a s (rotOperand_complement hpos hn), rotateRight_neg]
  · have hsum := rotOperand_ofNat (⟨m.toNat, Nat.lt_succ_of_le hm⟩ + ⟨n.toNat, Nat.lt_succ_of_le hn⟩)
    rw [Fin.val_add] at hsum
    rw [answer_rotl _ s hN, answer_rotl a s hsum, rotateLeft_rotateLeft]

end Sys2Proof.Proofs.Rotate
end

section
/-! PROOFS. What the statements about commands with one operand share: the words of a command that leaves an operand
field unused, and the stray bits that make a word of its opcode Illegal (R46, R47, R49). -/

namespace Sys2Proof.Proofs.UnusedFieldClauses

open Sys2Proof Sys2Proof.Machine Sys2Proof.Proofs.Encoding Sys2Proof.Proofs.CommandClauses

/-! ### The words of a command -/

/-- Two commands with the same mnemonic and the same fields are the same command. -/
theorem instr_ext {i j : Instr} (hm : i.mnemonic = j.mnemonic) (ha : i.fieldA = j.fieldA) (hb : i.fieldB = j.fieldB) :
    i = j := by
  rw [← ofFields_fields i, hm, ha, hb, ofFields_fields]

/-- A field A that the command does not use is 0x00 (R46). -/
theorem fieldA_of_unused {i : Instr} (h : i.mnemonic.usesA = false) : i.fieldA = 0x00#8 := by
  obtain ⟨-, -, -, ha⟩ := wordOf_encode i
  simpa [h] using ha

/-- A field B that the command does not use is 0x00 (R46). -/
theorem fieldB_of_unused {i : Instr} (h : i.mnemonic.usesB = false) : i.fieldB = 0x00#8 := by
  obtain ⟨-, -, hb, -⟩ := wordOf_encode i
  simpa [h] using hb

/-- A command is told by its mnemonic and the fields it uses. -/
theorem eq_ofFields_iff_used (i : Instr) (a b : Byte) : i = Instr.ofFields i.mnemonic a b ↔
    (i.mnemonic.usesA = true → i.fieldA = a) ∧ (i.mnemonic.usesB = true → i.fieldB = b) := by
  constructor
  · intro h
    have ha := congrArg Instr.fieldA h
    have hb := congrArg Instr.fieldB h
    rw [fieldA_ofFields] at ha
    rw [fieldB_ofFields] at hb
    exact ⟨fun hA => ha.trans (if_pos hA), fun hB => hb.trans (if_pos hB)⟩
  · rintro ⟨ha, hb⟩
    refine instr_ext (mnemonic_ofFields _ _ _).symm ?_ ?_
    · rw [fieldA_ofFields]
      split
      next hA => exact ha hA
      next hA => exact fieldA_of_unused (Bool.eq_false_of_not_eq_true hA)
    · rw [fieldB_ofFields]
      split
      next hB => exact hb hB
      next hB => exact fieldB_of_unused (Bool.eq_false_of_not_eq_true hB)

section Words

variable (cw : CmdWord) {r : OpRow} {i : Instr}

/-- The words of a command whose one operand is in field A: those of its row's match and mask, with its operand there
(R46, R47). -/
theorem decode_eq_operandA_cmd_iff (hr : r ∈ opRows) (hi : i.mnemonic = r.mnemonic) (hA : i.mnemonic.usesA = true)
    (hB : i.mnemonic.usesB = false) : decode cw = .cmd i ↔ cw &&& r.mask = r.pattern ∧ i.fieldA = opA cw := by
  rw [decode_eq_cmd_iff_masked cw hr hi, eq_ofFields_iff_used]
  simp [hA, hB]

/-- The words of a command whose one operand is in field B: those of its row's match and mask, with its operand there
(R46, R47). -/
theorem decode_eq_operandB_cmd_iff (hr : r ∈ opRows) (hi : i.mnemonic = r.mnemonic) (hA : i.mnemonic.usesA = false)
    (hB : i.mnemonic.usesB = true) : decode cw = .cmd i ↔ cw &&& r.mask = r.pattern ∧ i.fieldB = opB cw := by
  rw [decode_eq_cmd_iff_masked cw hr hi, eq_ofFields_iff_used]
  simp [hA, hB]

end Words

/-! ### Words that are no command -/

section Stray

variable {cw : CmdWord} {m : Mnemonic}

/-- A word with the opcode of a mnemonic is that mnemonic's or Illegal (R47, R49). -/
theorem decode_eq_illegal_of_opcode (hopc : opcOf cw = m.opcode) (h : ¬ WordOf m cw) : decode cw = .illegal := by
  refine (decode_eq_illegal_iff cw).2 fun n ⟨hopc', hrest⟩ => h ?_
  obtain rfl : m = n := opcode_injective m n (hopc.symm.trans hopc')
  exact ⟨hopc, hrest⟩

/-- A stray bit in RSV or in an unused field A makes the word Illegal (R49). -/
theorem decode_eq_illegal_of_stray_rsv_or_A (hopc : opcOf cw = m.opcode) (hA : m.usesA = false)
    (h : rsvOf cw ≠ 0#8 ∨ opA cw ≠ 0#8) : decode cw = .illegal := by
  refine decode_eq_illegal_of_opcode hopc fun ⟨_, hrsv, _, ha⟩ => ?_
  rcases h with h | h
  · exact h hrsv
  · exact h (ha.resolve_left (by simp [hA]))

/-- A stray bit in RSV or in an unused field B makes the word Illegal (R49). -/
theorem decode_eq_illegal_of_stray_rsv_or_B (hopc : opcOf cw = m.opcode) (hB : m.usesB = false)
    (h : rsvOf cw ≠ 0#8 ∨ opB cw ≠ 0#8) : decode cw = .illegal := by
  refine decode_eq_illegal_of_opcode hopc fun ⟨_, hrsv, hb, _⟩ => ?_
  rcases h with h | h
  · exact h hrsv
  · exact h (hb.resolve_left (by simp [hB]))

end Stray

end Sys2Proof.Proofs.UnusedFieldClauses
end

section
/-! PROOFS. KeyScheduler: each bit of a computed key is a bit of the seed or of its mirror image, from which come the closed
form (R65) and the laws of R66; what KEYGEN, KEYLD and KEYCALC do and answer (R68 to R70); then the obligations O14, O15,
O16, O17 and O18. -/

namespace Sys2Proof.Proofs.KeyScheduler

open Sys2Proof Sys2Proof.Machine Sys2Proof.Proofs.CommandClauses Sys2Proof.Proofs.UnusedFieldClauses
open Sys2Proof.Proofs.Rotate (setWhere_below_bit byte_ext)

/-! ### The bits of a key -/

/-- The mirror image of a position, as a number. -/
theorem val_mirror (j : BitPos) : (7 - j).val = 7 - j.val := by
  revert j
  decide

/-- Bit `j` of a reversed byte is bit `7 - j` of the byte (R12). -/
theorem reverse_bit (b : Byte) {j : Nat} (hj : j ≤ 7) : b.reverse.getLsbD j = b.getLsbD (7 - j) := by
  rw [BitVec.getLsbD_reverse, BitVec.getMsbD, decide_eq_true (Nat.lt_succ_of_le hj), Bool.true_and]

/-- Bit `j` of a byte with its reversal is bit `j` or bit `7 - j` of the byte (R65). -/
theorem keyForm_bit (b : Byte) {j : Nat} (hj : j ≤ 7) :
    (keyForm b).getLsbD j = (b.getLsbD j || b.getLsbD (7 - j)) := by
  rw [keyForm, BitVec.getLsbD_or, reverse_bit b hj]

/-- A seed held as a byte has the seed's bits (R64). -/
theorem wide_bit (seed : Seed) {j : Nat} (hj : j < 8) : (seed.setWidth 8).getLsbD j = seed.getLsbD j := by
  rw [BitVec.getLsbD_setWidth, decide_eq_true hj, Bool.true_and]

/-- Bit `j` of a computed key is bit `j` or bit `7 - j` of the seed: the loop of R64 sets the mirror images of the positions
0 to 3, and the seed has no bit above them. -/
theorem computeKey_bit (seed : Seed) (j : BitPos) :
    (computeKey seed).getLsbD j.val = (seed.getLsbD j.val || seed.getLsbD (7 - j.val)) := by
  have hdest : (fun k : BitPos => 7 - k).Injective := fun _ _ h => sub_right_injective h
  have hloop := setWhere_below_bit (seed.setWidth 8) 4 hdest (getBit (seed.setWidth 8)) (7 - j)
  have hnarrow : (decide (7 - j < 4) && seed.getLsbD (7 - j).val) = seed.getLsbD (7 - j).val := by
    by_cases h : 7 - j < 4
    · rw [decide_eq_true h, Bool.true_and]
    · rw [BitVec.getLsbD_of_ge seed _ (not_lt.1 h), Bool.and_false]
  rw [sub_sub_cancel, getBit_eq, wide_bit seed j.isLt, wide_bit seed (7 - j).isLt, hnarrow, val_mirror] at hloop
  exact hloop

/-- The loop of R64 is the closed form of R65. -/
theorem computeKey_eq_keyForm (seed : Seed) : computeKey seed = keyForm (seed.setWidth 8) := by
  refine byte_ext fun j => ?_
  have hj : j.val ≤ 7 := Nat.le_of_lt_succ j.isLt
  rw [computeKey_bit, keyForm_bit _ hj, wide_bit seed j.isLt, wide_bit seed (Nat.lt_succ_of_le (Nat.sub_le 7 j.val))]

/-! ### The laws of R66, of the functions -/

/-- A byte with its reversal has the same bit at a position and at its mirror image (R66). -/
theorem keyForm_bit_mirror (b : Byte) {j : Nat} (hj : j ≤ 7) : (keyForm b).getLsbD j = (keyForm b).getLsbD (7 - j) := by
  rw [keyForm_bit b hj, keyForm_bit b (Nat.sub_le 7 j), Nat.sub_sub_self hj, Bool.or_comm]

/-- A byte with its reversal is its own reversal (R66). -/
theorem reverse_keyForm (b : Byte) : (keyForm b).reverse = keyForm b := by
  refine byte_ext fun j => ?_
  have hj : j.val ≤ 7 := Nat.le_of_lt_succ j.isLt
  rw [reverse_bit _ hj, ← keyForm_bit_mirror b hj]

/-- The low nibble of a computed key is its seed (R65). -/
theorem setWidth_computeKey (seed : Seed) : (computeKey seed).setWidth 4 = seed := by
  refine BitVec.eq_of_getLsbD_eq fun j hj => ?_
  have hbit := computeKey_bit seed ⟨j, by omega⟩
  rw [BitVec.getLsbD_of_ge seed (7 - j) (by omega), Bool.or_false] at hbit
  rw [BitVec.getLsbD_setWidth, decide_eq_true hj, Bool.true_and, hbit]

/-- The low nibble of a computed key, as a number, is the seed's. -/
theorem toNat_computeKey_mod (seed : Seed) : (computeKey seed).toNat % 16 = seed.toNat :=
  (BitVec.toNat_setWidth 4 _).symm.trans (congrArg BitVec.toNat (setWidth_computeKey seed))

/-- Different seeds have different keys (R66). -/
theorem computeKey_injective : computeKey.Injective :=
  Function.LeftInverse.injective (g := BitVec.setWidth 4) setWidth_computeKey

/-! ### The seed operand -/

/-- A byte is a seed exactly when it is that seed with four bits 0 above it: no byte is reduced to its low nibble (R68). -/
theorem seedOperand_eq_some_iff {b : Byte} {seed : Seed} : seedOperand b = some seed ↔ b = seed.setWidth 8 := by
  constructor
  · intro h
    rcases Nat.lt_or_ge 15 b.toNat with hgt | hle
    · rw [seedOperand_of_gt hgt] at h
      cases h
    · rw [seedOperand_of_le hle] at h
      obtain rfl := Option.some.inj h
      refine BitVec.eq_of_toNat_eq ?_
      rw [BitVec.toNat_setWidth_of_le (by decide), BitVec.toNat_setWidth, Nat.mod_eq_of_lt (Nat.lt_succ_of_le hle)]
  · rintro rfl
    have hval : (seed.setWidth 8).toNat = seed.toNat := BitVec.toNat_setWidth_of_le (by decide)
    rw [seedOperand_of_le (by omega), BitVec.setWidth_setWidth_of_le seed (by decide), BitVec.setWidth_eq]

/-- A byte up to 15 is a seed (R45). -/
theorem exists_seed_of_le {b : Byte} (h : b.toNat ≤ 15) : ∃ seed : Seed, seedOperand b = some seed :=
  ⟨_, seedOperand_of_le h⟩

/-- The number of a seed is its operand. -/
theorem seedOperand_ofNat {n : Nat} (h : n < 16) : seedOperand (BitVec.ofNat 8 n) = some (BitVec.ofNat 4 n) :=
  seedOperand_eq_some_iff.2 (BitVec.eq_of_toNat_eq (by
    rw [BitVec.toNat_setWidth_of_le (by decide), BitVec.toNat_ofNat, BitVec.toNat_ofNat]
    omega))

/-- The key of a seed operand is the operand with its reversal (R65). -/
theorem computeKey_of_seed {b : Byte} {seed : Seed} (h : seedOperand b = some seed) : computeKey seed = keyForm b := by
  rw [computeKey_eq_keyForm, seedOperand_eq_some_iff.1 h]

/-- The low nibble of a seed operand's key is the operand (R65). -/
theorem toNat_computeKey_mod_of_seed {b : Byte} {seed : Seed} (h : seedOperand b = some seed) :
    (computeKey seed).toNat % 16 = b.toNat := by
  rw [toNat_computeKey_mod, seedOperand_eq_some_iff.1 h, BitVec.toNat_setWidth_of_le (by decide)]

/-! ### What the commands do, and what they answer -/

section Commands

variable {b : Byte} {seed : Seed} (s : State)

theorem exec_keygen_of_seed (h : seedOperand b = some seed) :
    exec (.keygen b) s = .next ((s.installKey (computeKey seed)).respond (computeKey seed)) :=
  congrArg _ (withOperand_of_some h s _ _)

theorem exec_keyld (a : Byte) : exec (.keyld a) s = .next ((s.installKey a).respond a) := rfl

theorem exec_keycalc_of_seed (h : seedOperand b = some seed) :
    exec (.keycalc b) s = .next (s.respond (computeKey seed)) := congrArg _ (withOperand_of_some h s _ _)

theorem answer_keycalc (h : seedOperand b = some seed) : answer (.keycalc b) s = some (computeKey seed) :=
  answer_of_respond (exec_keycalc_of_seed s h)

/-- A command on a seed raises E_SEED for an operand above 15, and only the response changes (R102, R108). -/
theorem withSeed_of_gt (h : 15 < b.toNat) (run : Seed → State) :
    s.withOperand (seedOperand b) .seed run = { s with port := .responding 0x400#12 } :=
  withOperand_of_none (seedOperand_of_gt h) s _ _

/-- A key written and answered: KEY, KEYV and the response hold it, and a session starts (R68, R69, R81). -/
theorem installKey_respond_eq (k : Byte) : (s.installKey k).respond k =
    { s with key := k, keyv := true, fb := 0xCB#8, cnt := 0#32, port := .responding (0x0#4 ++ k) } := rfl

end Commands

/-! ### The obligations -/

/-- Settles O14: the row's match and mask, the stray bits, and the two outcomes of the seed's check. -/
theorem keygenCommand : Obligations.KeygenCommand := by
  refine ⟨fun cw _ => decode_eq_operandB_cmd_iff cw (r := ⟨.keygen, 0x20000000#32, 0xFFFF00FF#32⟩) (by decide) rfl rfl rfl,
    fun _ _ hnext hopc hstray =>
      step_of_illegal hnext (decode_eq_illegal_of_stray_rsv_or_A (m := .keygen) hopc rfl hstray),
    fun b s hle => ?_, fun _ s hgt => congrArg _ (withSeed_of_gt s hgt _)⟩
  obtain ⟨seed, hseed⟩ := exists_seed_of_le hle
  rw [exec_keygen_of_seed s hseed, installKey_respond_eq, computeKey_of_seed hseed]

/-- Settles O15: the row's match and mask, the stray bits, the one outcome, and the key of the seed 5. -/
theorem keyldCommand : Obligations.KeyldCommand := by
  refine ⟨fun cw _ => decode_eq_operandA_cmd_iff cw (r := ⟨.keyld, 0x21000000#32, 0xFFFFFF00#32⟩) (by decide) rfl rfl rfl,
    fun _ _ hnext hopc hstray =>
      step_of_illegal hnext (decode_eq_illegal_of_stray_rsv_or_B (m := .keyld) hopc rfl hstray),
    fun a s => (exec_keyld s a).trans (congrArg _ (installKey_respond_eq s a)), fun s => ?_⟩
  have hseed : seedOperand 5#8 = some 5#4 := by decide
  have hkey : computeKey 5#4 = 0xA5#8 := by decide
  rw [exec_keyld, exec_keygen_of_seed s hseed, hkey]

/-- Settles O16: as O14, with the key answered and not installed. -/
theorem keycalcCommand : Obligations.KeycalcCommand := by
  refine ⟨fun cw _ => decode_eq_operandB_cmd_iff cw (r := ⟨.keycalc, 0x22000000#32, 0xFFFF00FF#32⟩) (by decide) rfl rfl rfl,
    fun _ _ hnext hopc hstray =>
      step_of_illegal hnext (decode_eq_illegal_of_stray_rsv_or_A (m := .keycalc) hopc rfl hstray),
    fun b s hle => ?_, fun _ s hgt => congrArg _ (withSeed_of_gt s hgt _)⟩
  obtain ⟨seed, hseed⟩ := exists_seed_of_le hle
  rw [exec_keycalc_of_seed s hseed, respond_eq, computeKey_of_seed hseed]

/-- Settles O17: the laws of the computed key, and that a key gives its seed back. -/
theorem keysArePalindromesAndDistinct : Obligations.KeysArePalindromesAndDistinct := by
  refine ⟨fun s t b hle h => ?_, fun s b c hb hc h => ?_⟩
  · obtain ⟨seed, hseed⟩ := exists_seed_of_le hle
    obtain rfl := Host.Outcome.next.inj ((exec_keygen_of_seed s hseed).symm.trans h)
    have hnibble := toNat_computeKey_mod_of_seed hseed
    rw [computeKey_of_seed hseed] at hnibble ⊢
    exact ⟨reverse_keyForm b, hnibble, fun _ => keyForm_bit_mirror b⟩
  · obtain ⟨seed, hseed⟩ := exists_seed_of_le hb
    obtain ⟨seed', hseed'⟩ := exists_seed_of_le hc
    rw [answer_keycalc s hseed, answer_keycalc s hseed'] at h
    obtain rfl : seed = seed' := computeKey_injective (Option.some.inj h)
    rw [seedOperand_eq_some_iff.1 hseed, seedOperand_eq_some_iff.1 hseed']

/-- Settles O18: every number in 0 to 15 is a seed, so the table is that of the function of R64. -/
theorem computedKeyTable : Obligations.ComputedKeyTable := by
  intro s
  have hanswers : (List.range 16).map (fun n => answer (.keycalc (BitVec.ofNat 8 n)) s) =
      (List.range 16).map fun n => some (computeKey (BitVec.ofNat 4 n)) :=
    List.map_congr_left fun n hn => answer_keycalc s (seedOperand_ofNat (List.mem_range.1 hn))
  rw [hanswers]
  decide

end Sys2Proof.Proofs.KeyScheduler
end

section
/-! PROOFS. ByteCipher: the loop of R72 and R73 is the XOR with the reversed key, from which come the closed forms (R74) and
the inverses of R75; what ENCB and DECB do and answer (R76, R77); the bytes of Decrypt (R79); then the obligations O19, O20,
O21, O22 and O35. -/

namespace Sys2Proof.Proofs.ByteCipher

open Sys2Proof Sys2Proof.Machine Sys2Proof.Proofs.CommandClauses
open Sys2Proof.Proofs.Rotate
open Sys2Proof.Proofs.KeyScheduler (val_mirror reverse_bit)

/-! ### The loop that output bits are set in -/

/-- A loop that sets, in the zero byte, each position that passes a test gives the byte whose bits are the test's. -/
theorem setWhere_bitPositions_bit (test : BitPos → Bool) (i : BitPos) :
    (setWhere 0x00#8 bitPositions test id).getLsbD i.val = test i := by
  have hmem : i ∈ bitPositions := List.mem_finRange i
  rw [setWhere_getLsbD, BitVec.getLsbD_zero, Bool.false_or, Bool.eq_iff_iff, List.any_eq_true]
  constructor
  · rintro ⟨k, -, h⟩
    rw [Bool.and_eq_true, decide_eq_true_iff] at h
    obtain ⟨htest, hval⟩ := h
    obtain rfl : i = k := Fin.ext hval
    exact htest
  · exact fun htest => ⟨i, hmem, by simp [htest]⟩

/-- The loop that R72 and R73 share is the XOR with the reversed key. -/
theorem keyLoop_eq_xor_reverse (x key : Byte) :
    setWhere 0x00#8 bitPositions (fun i => getBit x i ^^ getBit key (7 - i)) id = x ^^^ key.reverse := by
  refine byte_ext fun i => ?_
  rw [setWhere_bitPositions_bit, BitVec.getLsbD_xor, reverse_bit key (Nat.le_of_lt_succ i.isLt), getBit_eq, getBit_eq,
    val_mirror]

/-! ### The cipher functions, with the loops gone (R74, R75) -/

section Functions

variable (x key : Byte)

theorem encryptByte_eq : encryptByte x key = rotateLeft x 2 ^^^ key.reverse := keyLoop_eq_xor_reverse _ key

theorem decryptByte_eq : decryptByte x key = rotateRight (x ^^^ key.reverse) 2 :=
  congrArg (rotateRight · 2) (keyLoop_eq_xor_reverse x key)

/-- The loops of R72 are the closed form of R74. -/
theorem encryptByte_eq_encryptForm : encryptByte x key = encryptForm x key :=
  (encryptByte_eq x key).trans (congrArg (· ^^^ key.reverse) (rotateLeft_eq_rotlForm x 2))

/-- The loops of R73 are the closed form of R74. -/
theorem decryptByte_eq_decryptForm : decryptByte x key = decryptForm x key :=
  (decryptByte_eq x key).trans (rotateRight_eq_rotrForm _ 2)

/-- Decryption undoes encryption under the same key: the XORs cancel, then the rotations (R75). -/
theorem decryptByte_encryptByte : decryptByte (encryptByte x key) key = x := by
  rw [decryptByte_eq, encryptByte_eq, xor_cancel_right, rotateRight_rotateLeft]

/-- Encryption undoes decryption under the same key: the rotations cancel, then the XORs (R75). -/
theorem encryptByte_decryptByte : encryptByte (decryptByte x key) key = x := by
  rw [encryptByte_eq, decryptByte_eq, rotateLeft_rotateRight, xor_cancel_right]

/-- Under each key encryption is a bijection of the bytes (R75). -/
theorem encryptByte_bijective : Function.Bijective fun x => encryptByte x key :=
  Function.bijective_iff_has_inverse.2
    ⟨fun c => decryptByte c key, fun x => decryptByte_encryptByte x key, fun c => encryptByte_decryptByte c key⟩

end Functions

/-! ### What the commands do, and what they answer -/

section Commands

variable (a b : Byte) (s : State)

theorem exec_encb : exec (.encb a b) s = .next (s.respond (encryptByte a b)) := rfl
theorem exec_decb : exec (.decb a b) s = .next (s.respond (decryptByte a b)) := rfl

theorem answer_encb : answer (.encb a b) s = some (encryptByte a b) := answer_of_respond (exec_encb a b s)
theorem answer_decb : answer (.decb a b) s = some (decryptByte a b) := answer_of_respond (exec_decb a b s)

end Commands

/-! ### The bytes of Decrypt (R79) -/

section Message

variable (c : List Byte) {i : Nat}

/-- The byte before byte `i` of a message, the first byte's being `iv`. -/
theorem getElem?_cons_of_lt (iv : Byte) (h : i < c.length) :
    (iv :: c)[i]? = some (if i = 0 then iv else c.getD (i - 1) 0#8) := by
  cases i with
  | zero => rfl
  | succ j => simp [Nat.lt_of_succ_lt h]

/-- Byte `i` of Decrypt is ciphertext byte `i` deciphered by itself, XOR the ciphertext byte before it (R79). -/
theorem decryptMessage_getElem? (key : Byte) (h : i < c.length) : (decryptMessage c key)[i]? =
    some (decryptByte (c.getD i 0#8) key ^^^ if i = 0 then Config.iv else c.getD (i - 1) 0#8) := by
  rw [decryptMessage, List.getElem?_zipWith, List.getElem?_map, List.getElem?_eq_getElem h, getElem?_cons_of_lt c _ h,
    List.getD_eq_getElem _ _ h]
  rfl

end Message

/-! ### The obligations -/

/-- Settles O19: the row's match and mask, the stray RSV, and the one outcome by its closed form. -/
theorem encbCommand : Obligations.EncbCommand :=
  ⟨fun cw _ _ => decode_eq_two_operand_cmd_iff cw (r := ⟨.encb, 0x30000000#32, 0xFFFF0000#32⟩) (by decide) rfl rfl rfl,
    fun _ _ hnext _ hrsv => step_of_illegal hnext (decode_eq_illegal_of_rsv_ne hrsv),
    fun a b s => by rw [exec_encb, respond_eq, encryptByte_eq_encryptForm]⟩

/-- Settles O20: as O19, with the byte deciphered. -/
theorem decbCommand : Obligations.DecbCommand :=
  ⟨fun cw _ _ => decode_eq_two_operand_cmd_iff cw (r := ⟨.decb, 0x31000000#32, 0xFFFF0000#32⟩) (by decide) rfl rfl rfl,
    fun _ _ hnext _ hrsv => step_of_illegal hnext (decode_eq_illegal_of_rsv_ne hrsv),
    fun a b s => by rw [exec_decb, respond_eq, decryptByte_eq_decryptForm]⟩

/-- Settles O21: the key's loop is an XOR with the reversed key, and the rotation's loop has the closed form of R60. -/
theorem cipherClosedForms : Obligations.CipherClosedForms := fun x key =>
  ⟨encryptByte_eq_encryptForm x key, decryptByte_eq_decryptForm x key⟩

/-- Settles O22: the commands answer what the functions give, and the functions are each other's inverse. -/
theorem cipherInverse : Obligations.CipherInverse := by
  refine ⟨fun s x key => ⟨_, _, answer_encb x key s, ?_, answer_decb x key s, ?_⟩,
    fun key => ⟨encryptByte_bijective key, fun x => decryptByte_encryptByte x key⟩⟩
  · rw [answer_decb, decryptByte_encryptByte]
  · rw [answer_encb, encryptByte_decryptByte]

/-- Settles O35: Decrypt deciphers each byte by itself, as DECB does, before the XOR with the byte before it. -/
theorem decbRecoversPlaintext : Obligations.DecbRecoversPlaintext := fun s c key _ h =>
  ⟨_, answer_decb _ key s, decryptMessage_getElem? c key h⟩

end Sys2Proof.Proofs.ByteCipher
end

section
/-! PROOFS. ChainEngine: the words of a command without operands, what ENC, DEC, CRST and KCLR do (R82 to R85), and what the
words between keep of a discarded key; then the obligations O23, O24, O25 and O26. -/

namespace Sys2Proof.Proofs.ChainEngine

open Sys2Proof Sys2Proof.Machine Sys2Proof.Proofs.Encoding Sys2Proof.Proofs.CommandClauses
open Sys2Proof.Proofs.UnusedFieldClauses Sys2Proof.Proofs.StateRules Sys2Proof.Proofs.ByteCipher

/-! ### The one word of a command without operands -/

/-- A word decodes to a command exactly when it is the command's encoding (R46 to R48). -/
theorem decode_eq_cmd_iff_eq_encode (cw : CmdWord) (i : Instr) : decode cw = .cmd i ↔ cw = encode i :=
  ⟨fun h => (encodeOfDecode cw i h).symm, fun h => h ▸ decode_encode i⟩

/-- Any other word with the opcode of a command without operands is Illegal (R49). -/
theorem decode_eq_illegal_of_ne_encode {cw : CmdWord} {i : Instr} (hA : i.mnemonic.usesA = false)
    (hB : i.mnemonic.usesB = false) (hopc : opcOf cw = i.mnemonic.opcode) (hne : cw ≠ encode i) :
    decode cw = .illegal := by
  refine decode_eq_illegal_of_opcode hopc fun hword => hne ?_
  have hi : i = Instr.ofFields i.mnemonic (opA cw) (opB cw) := (eq_ofFields_iff_used i _ _).2 (by simp [hA, hB])
  rw [hi, encode_ofFields_of_wordOf hword]

/-! ### What the commands do -/

section Commands

variable (a : Byte) {s : State}

theorem exec_enc_of_key (hk : s.keyv = true) :
    exec (.enc a) s = .next ((s.advanceChain (encryptByte (a ^^^ s.fb) s.key)).respond (encryptByte (a ^^^ s.fb) s.key)) :=
  congrArg Host.Outcome.next (if_pos hk)

theorem exec_dec_of_key (hk : s.keyv = true) :
    exec (.dec a) s = .next ((s.advanceChain a).respond (decryptByte a s.key ^^^ s.fb)) :=
  congrArg Host.Outcome.next (if_pos hk)

theorem exec_enc_of_no_key (hk : s.keyv = false) : exec (.enc a) s = .next { s with port := .responding 0x600#12 } :=
  chainStep_keyless rfl hk

theorem exec_dec_of_no_key (hk : s.keyv = false) : exec (.dec a) s = .next { s with port := .responding 0x600#12 } :=
  chainStep_keyless rfl hk

theorem exec_crst (s : State) :
    exec .crst s = .next { s with fb := 0xCB#8, cnt := 0#32, port := .responding 0x000#12 } := rfl

theorem exec_kclr (s : State) : exec .kclr s =
    .next { s with key := 0x00#8, keyv := false, fb := 0xCB#8, cnt := 0#32, port := .responding 0x000#12 } := rfl

/-- A chain step counts modulo 2^32 (R22). -/
theorem advanceChain_respond_eq (s : State) (c res : Byte) : (s.advanceChain c).respond res =
    { s with fb := c, cnt := BitVec.ofNat 32 ((s.cnt.toNat + 1) % 2 ^ 32), port := .responding (0x0#4 ++ res) } := by
  have hcnt : s.cnt + 1#32 = BitVec.ofNat 32 ((s.cnt.toNat + 1) % 2 ^ 32) := BitVec.eq_of_toNat_eq (by simp)
  rw [← hcnt]
  rfl

/-- CRST changes no register of the state that the rules leave without a key (R84). -/
theorem exec_crst_of_keyless (hk : s.keyv = false) (hs : s.keylessIsReset) :
    exec .crst s = .next { s with port := .responding 0x000#12 } := by
  obtain ⟨-, hfb, hcnt⟩ : s.key = 0x00#8 ∧ s.fb = 0xCB#8 ∧ s.cnt = 0#32 := hs hk
  rw [exec_crst, ← hfb, ← hcnt]

end Commands

/-! ### Runs of words -/

/-- What every word of a run keeps, the run keeps. -/
theorem wordRun_preserves {P : State → Prop} {words : List CmdWord} {s : State}
    (hword : ∀ cw ∈ words, ∀ u v : State, P u → runWord cw u = .next v → P v) (hs : P s) : P (wordRun words s).2 := by
  induction words generalizing s with
  | nil => exact hs
  | cons cw words ih =>
    obtain ⟨t, r, ht, -, hr⟩ := runWord_answers cw s
    rw [wordRun_cons words ht hr]
    exact ih (fun w hw => hword w (List.mem_cons_of_mem cw hw)) (hword cw List.mem_cons_self s t hs ht)

/-- A word that decodes to a command is of the command's kind. -/
theorem wordIs_of_cmd {cw : CmdWord} {i : Instr} (h : decode cw = .cmd i) (kind : Instr → Bool) :
    wordIs kind cw = kind i := by
  simp [wordIs, h]

/-- A word that is no completing KEYGEN or KEYLD sets no KEYV (R19). -/
theorem runWord_keyless {cw : CmdWord} {s t : State} (hcw : wordIs installsKey cw = false) (hs : s.keyv = false)
    (h : runWord cw s = .next t) : t.keyv = false := by
  cases hd : decode cw with
  | illegal =>
    obtain rfl := Host.Outcome.next.inj ((runWord_of_illegal hd s).symm.trans h)
    exact hs
  | cmd i =>
    have hi : installsKey i = false := (wordIs_of_cmd hd installsKey).symm.trans hcw
    rw [runWord_of_cmd hd] at h
    refine Bool.eq_false_of_not_eq_true fun ht => ?_
    exact absurd (hi.symm.trans (installsKey_of_exec_sets_keyv h hs ht)) Bool.false_ne_true

/-! ### The obligations -/

/-- Settles O23: the row's match and mask, the stray bits, and the chain step with a key and without one. -/
theorem encCommand : Obligations.EncCommand := by
  refine ⟨fun cw _ => decode_eq_operandA_cmd_iff cw (r := ⟨.enc, 0x40000000#32, 0xFFFFFF00#32⟩) (by decide) rfl rfl rfl,
    fun _ _ hnext hopc hstray =>
      step_of_illegal hnext (decode_eq_illegal_of_stray_rsv_or_B (m := .enc) hopc rfl hstray),
    fun a s hk => ?_, fun a _ hk => exec_enc_of_no_key a hk⟩
  rw [exec_enc_of_key a hk, advanceChain_respond_eq, encryptByte_eq_encryptForm]

/-- Settles O24: as O23, with the input byte fed back. -/
theorem decCommand : Obligations.DecCommand := by
  refine ⟨fun cw _ => decode_eq_operandA_cmd_iff cw (r := ⟨.dec, 0x41000000#32, 0xFFFFFF00#32⟩) (by decide) rfl rfl rfl,
    fun _ _ hnext hopc hstray =>
      step_of_illegal hnext (decode_eq_illegal_of_stray_rsv_or_B (m := .dec) hopc rfl hstray),
    fun a s hk => ?_, fun a _ hk => exec_dec_of_no_key a hk⟩
  rw [exec_dec_of_key a hk, advanceChain_respond_eq, decryptByte_eq_decryptForm]

/-- Settles O25: the one word, any other with its opcode, and the session started. -/
theorem crstCommand : Obligations.CrstCommand :=
  ⟨fun cw => decode_eq_cmd_iff_eq_encode cw .crst,
    fun _ _ hnext hopc hne => step_of_illegal hnext (decode_eq_illegal_of_ne_encode (i := .crst) rfl rfl hopc hne),
    exec_crst, fun _ => exec_crst_of_keyless⟩

/-- Settles O26: as O25, with the key discarded; and KEYV stays 0 over words that install no key. -/
theorem kclrCommand : Obligations.KclrCommand := by
  refine ⟨fun cw => decode_eq_cmd_iff_eq_encode cw .kclr,
    fun _ _ hnext hopc hne => step_of_illegal hnext (decode_eq_illegal_of_ne_encode (i := .kclr) rfl rfl hopc hne),
    exec_kclr, fun s t u words a h hwords hu => ?_⟩
  obtain rfl := Host.Outcome.next.inj ((exec_kclr s).symm.trans h)
  have hk : u.keyv = false := hu ▸ wordRun_preserves (P := fun v => v.keyv = false)
    (fun cw hcw _ _ hv => runWord_keyless (hwords cw hcw) hv) rfl
  exact ⟨exec_enc_of_no_key a hk, exec_dec_of_no_key a hk⟩

end Sys2Proof.Proofs.ChainEngine
end

section
/-! PROOFS. Along a session (R81, R86): a word that starts no session is a chain step or leaves every register, so CNT counts
the chain steps and FB is the last one's ciphertext byte; then the obligation O28. -/

namespace Sys2Proof.Proofs.Session

open Sys2Proof Sys2Proof.Machine Sys2Proof.Proofs.StateRules Sys2Proof.Proofs.SideEffects Sys2Proof.Proofs.ChainEngine

/-! ### One word of a session -/

/-- A command that is neither a session start nor a chain step keeps the registers: it is pure, or a KEYGEN out of range
(R38, R102). -/
theorem sameRegs_of_exec {i : Instr} {s t : State} (hstart : sessionStart i = false) (hchain : chainStepOf i = false)
    (h : exec i s = .next t) : s.sameRegs t := by
  cases i with
  | nop | getbit | setbit | clrbit | rotl | rotr | keycalc | encb | decb | rdreg => exact sameRegs_of_pureCommand rfl h
  | keygen b =>
    have hb : 15 < b.toNat := by simpa [sessionStart] using hstart
    obtain rfl := Host.Outcome.next.inj ((congrArg _ (KeyScheduler.withSeed_of_gt s hb _)).symm.trans h)
    exact ⟨rfl, rfl, rfl, rfl⟩
  | keyld | crst | kclr => cases hstart
  | enc | dec => cases hchain

/-- A word that is neither a session start nor a chain step keeps the registers (R86). -/
theorem sameRegs_of_runWord {cw : CmdWord} {s t : State} (hstart : wordIs sessionStart cw = false)
    (hchain : wordIs chainStepOf cw = false) (h : runWord cw s = .next t) : s.sameRegs t := by
  cases hd : decode cw with
  | illegal =>
    obtain rfl := Host.Outcome.next.inj ((runWord_of_illegal hd s).symm.trans h)
    exact ⟨rfl, rfl, rfl, rfl⟩
  | cmd i =>
    rw [wordIs_of_cmd hd] at hstart hchain
    rw [runWord_of_cmd hd] at h
    exact sameRegs_of_exec hstart hchain h

/-- With a key, a word that is a chain step advances the chain (R82, R83). -/
theorem advanceChain_of_runWord {cw : CmdWord} {s t : State} (hk : s.keyv = true)
    (hchain : wordIs chainStepOf cw = true) (h : runWord cw s = .next t) :
    ∃ c res : Byte, t = (s.advanceChain c).respond res := by
  cases hd : decode cw with
  | illegal => simp [wordIs, hd] at hchain
  | cmd i =>
    rw [wordIs_of_cmd hd] at hchain
    obtain ⟨c, res, hexec⟩ := chainStep_keyed hchain hk
    exact ⟨c, res, Host.Outcome.next.inj (h.symm.trans ((runWord_of_cmd hd s).trans (hexec s.cnt)))⟩

/-- In a session with a key, a word that starts no session keeps the key, and counts when it is a chain step (R86). -/
theorem runWord_in_session {cw : CmdWord} {s t : State} (hk : s.keyv = true) (hstart : wordIs sessionStart cw = false)
    (h : runWord cw s = .next t) :
    t.key = s.key ∧ t.keyv = true ∧ t.cnt = s.cnt + BitVec.ofNat 32 (if wordIs chainStepOf cw then 1 else 0) := by
  cases hchain : wordIs chainStepOf cw with
  | true =>
    obtain ⟨c, res, rfl⟩ := advanceChain_of_runWord hk hchain h
    exact ⟨rfl, hk, rfl⟩
  | false =>
    obtain ⟨hkey, hkeyv, -, hcnt⟩ := sameRegs_of_runWord hstart hchain h
    exact ⟨hkey, hkeyv.trans hk, by simpa using hcnt⟩

/-! ### Runs of a session's words -/

section Runs

variable {words : List CmdWord} {s : State} (hstart : ∀ cw ∈ words, wordIs sessionStart cw = false)
include hstart

/-- The words of a session keep KEY and KEYV, and CNT counts the chain steps among them (R86). -/
theorem wordRun_in_session (hk : s.keyv = true) : (wordRun words s).2.key = s.key ∧ (wordRun words s).2.keyv = true ∧
    (wordRun words s).2.cnt = s.cnt + BitVec.ofNat 32 (words.countP (wordIs chainStepOf)) := by
  induction words generalizing s with
  | nil => exact ⟨rfl, hk, (BitVec.add_zero s.cnt).symm⟩
  | cons cw words ih =>
    obtain ⟨t, r, ht, -, hr⟩ := runWord_answers cw s
    obtain ⟨hkey, hkeyv, hcnt⟩ := runWord_in_session hk (hstart cw List.mem_cons_self) ht
    obtain ⟨ihkey, ihkeyv, ihcnt⟩ := ih (fun w hw => hstart w (List.mem_cons_of_mem cw hw)) hkeyv
    rw [wordRun_cons words ht hr]
    refine ⟨ihkey.trans hkey, ihkeyv, ?_⟩
    rw [ihcnt, hcnt, List.countP_cons, Nat.add_comm, BitVec.ofNat_add, BitVec.add_assoc]

/-- Words without a chain step among them keep FB (R86). -/
theorem wordRun_keeps_fb (hchain : ∀ cw ∈ words, wordIs chainStepOf cw = false) : (wordRun words s).2.fb = s.fb := by
  refine wordRun_preserves (P := fun u => u.fb = s.fb) (fun cw hcw u v hu h => ?_) rfl
  obtain ⟨-, -, hfb, -⟩ := sameRegs_of_runWord (hstart cw hcw) (hchain cw hcw) h
  exact hfb.trans hu

end Runs

/-- After a chain step and words without one, FB is the step's ciphertext byte (R86). -/
theorem wordRun_fb_of_last {before after : List CmdWord} {last : CmdWord} {s t : State} {c res : Byte}
    (hlast : runWord last (wordRun before s).2 = .next ((t.advanceChain c).respond res))
    (hstart : ∀ cw ∈ after, wordIs sessionStart cw = false) (hchain : ∀ cw ∈ after, wordIs chainStepOf cw = false) :
    (wordRun (before ++ last :: after) s).2.fb = c ∧
      (wordRun (before ++ last :: after) s).1[before.length]? = some (okRsp res) := by
  rw [wordRun_append, wordRun_cons after hlast rfl]
  refine ⟨wordRun_keeps_fb hstart hchain, ?_⟩
  rw [← wordRun_length before s, List.getElem?_append_right le_rfl, Nat.sub_self, List.getElem?_cons_zero]

/-! ### The obligation -/

/-- Settles O28: the words before the last chain step keep the key, the step sets FB, and the words after it keep FB. -/
theorem sessionFeedback : Obligations.SessionFeedback := by
  intro words s t rsps hk hfb hcnt hstart hrun
  have hlen := wordRun_length words s
  obtain ⟨hkey, hkeyv, hcount⟩ := wordRun_in_session hstart hk
  rw [hrun] at hlen hkey hkeyv hcount
  refine ⟨hlen, hkey, hkeyv, by rw [hcount, hcnt, BitVec.zero_add], fun hchain => ?_, ?_⟩
  · rw [← hfb, ← wordRun_keeps_fb (s := s) hstart hchain, hrun]
  · rintro before after last rfl hafter
    obtain ⟨-, hkeyed, -⟩ := wordRun_in_session (s := s) (fun cw hcw => hstart cw (List.mem_append_left _ hcw)) hk
    have hquiet : ∀ cw ∈ after, wordIs sessionStart cw = false := fun cw hcw =>
      hstart cw (List.mem_append_right _ (List.mem_cons_of_mem last hcw))
    refine ⟨fun a hd => ?_, fun a hd => ?_⟩
    · obtain ⟨hlast, -⟩ := wordRun_fb_of_last ((runWord_of_cmd hd _).trans (exec_dec_of_key a hkeyed)) hquiet hafter
      rw [← hlast, hrun]
    · obtain ⟨hlast, hrsp⟩ := wordRun_fb_of_last ((runWord_of_cmd hd _).trans (exec_enc_of_key a hkeyed)) hquiet hafter
      rw [hrun] at hlast hrsp
      rw [hrsp, ← hlast]
      rfl

end Sys2Proof.Proofs.Session
end

section
/-! PROOFS. Encrypt and Decrypt as functions on messages (R78, R79): Decrypt goes along the ciphertext as Encrypt along the
plaintext, each byte undoes the other's, and a ciphertext byte depends on plaintext XOR feedback; then the obligations O33 and
O34. -/

namespace Sys2Proof.Proofs.Message

open Sys2Proof Sys2Proof.Machine Sys2Proof.Proofs.CommandClauses Sys2Proof.Proofs.ByteCipher Sys2Proof.Proofs.ChainEngine

/-! ### Decrypt from a feedback byte -/

/-- Decrypt from the feedback byte `prev`, byte by byte: the counterpart of `encryptFrom`, and Decrypt when `prev` is the
IV (R79, R83). -/
def decryptFrom (key prev : Byte) : List Byte → List Byte
  | [] => []
  | c :: cs => (decryptByte c key ^^^ prev) :: decryptFrom key c cs

theorem zipWith_eq_decryptFrom (key prev : Byte) (c : List Byte) :
    List.zipWith (fun source before => source ^^^ before) (c.map fun b => decryptByte b key) (prev :: c) =
      decryptFrom key prev c := by
  induction c generalizing prev with
  | nil => rfl
  | cons b c ih => exact congrArg (_ :: ·) (ih b)

theorem decryptMessage_eq_decryptFrom (c : List Byte) (key : Byte) :
    decryptMessage c key = decryptFrom key Config.iv c := zipWith_eq_decryptFrom key Config.iv c

/-! ### Length and round trip -/

section Laws

variable (key : Byte)

theorem length_encryptFrom (prev : Byte) (m : List Byte) : (encryptFrom key prev m).length = m.length := by
  induction m generalizing prev with
  | nil => rfl
  | cons p m ih => exact congrArg (· + 1) (ih _)

theorem length_decryptFrom (prev : Byte) (c : List Byte) : (decryptFrom key prev c).length = c.length := by
  induction c generalizing prev with
  | nil => rfl
  | cons b c ih => exact congrArg (· + 1) (ih _)

/-- From the same feedback byte Decrypt undoes Encrypt: both feed back the ciphertext (R89). -/
theorem decryptFrom_encryptFrom (prev : Byte) (m : List Byte) : decryptFrom key prev (encryptFrom key prev m) = m := by
  induction m generalizing prev with
  | nil => rfl
  | cons p m ih => rw [encryptFrom, decryptFrom, decryptByte_encryptByte, xor_cancel_right, ih]

/-- Byte `i + 1` of the ciphertext encrypts plaintext byte `i + 1` XOR ciphertext byte `i` (R78, R90). -/
theorem encryptFrom_getD_succ (prev : Byte) (m : List Byte) {i : Nat} (h : i + 1 < m.length) :
    (encryptFrom key prev m).getD (i + 1) 0#8 =
      encryptByte (m.getD (i + 1) 0#8 ^^^ (encryptFrom key prev m).getD i 0#8) key := by
  induction m generalizing prev i with
  | nil => cases h
  | cons p m ih =>
    cases i with
    | zero =>
      cases m with
      | nil => exact absurd h (by simp)
      | cons q m => rfl
    | succ j => exact ih _ (Nat.lt_of_succ_lt_succ h)

end Laws

/-! ### What ENC answers -/

theorem answer_enc_of_key (a : Byte) {s : State} (hk : s.keyv = true) :
    answer (.enc a) s = some (encryptByte (a ^^^ s.fb) s.key) := answer_of_respond (exec_enc_of_key a hk)

/-- Under one key two ENC steps answer the same byte exactly when plaintext XOR feedback is the same (R90). -/
theorem answer_enc_eq_iff (a b : Byte) {s t : State} (hs : s.keyv = true) (ht : t.keyv = true) (hkey : s.key = t.key) :
    answer (.enc a) s = answer (.enc b) t ↔ a ^^^ s.fb = b ^^^ t.fb := by
  rw [answer_enc_of_key a hs, answer_enc_of_key b ht, hkey, Option.some_inj]
  exact (encryptByte_bijective t.key).injective.eq_iff

/-! ### The obligations -/

/-- Settles O33: the round trip from the IV, and the lengths from any feedback byte. -/
theorem messageRoundTrip : Obligations.MessageRoundTrip := by
  intro m key
  rw [decryptMessage_eq_decryptFrom, decryptMessage_eq_decryptFrom]
  exact ⟨decryptFrom_encryptFrom key Config.iv m, length_encryptFrom key Config.iv m, length_decryptFrom key Config.iv m⟩

/-- Settles O34: encryption under a key is injective, and each ciphertext byte is fed back to the next. -/
theorem feedbackDependency : Obligations.FeedbackDependency := by
  refine ⟨fun s t a b hs ht hkey => ⟨?_, answer_enc_eq_iff a b hs ht hkey⟩, fun m key i h => ?_⟩
  · rw [answer_enc_of_key a hs, Option.isSome_some]
  · rw [← encryptByte_eq_encryptForm]
    exact encryptFrom_getD_succ key Config.iv m h

end Sys2Proof.Proofs.Message
end

section
/-! PROOFS. The pseudo-operations on the machine (R87, R88): a key written, then a run of chain steps that answers one list of
bytes and feeds back another; what the commands answer, and what the host takes; then the obligations O29, O30, O31 and
O32. -/

namespace Sys2Proof.Proofs.PseudoOps

open Sys2Proof Sys2Proof.Machine Sys2Proof.Proofs.Encoding Sys2Proof.Proofs.StateRules Sys2Proof.Proofs.KeyScheduler
open Sys2Proof.Proofs.ChainEngine Sys2Proof.Proofs.Message

/-! ### Commands as words -/

/-- A run of commands' words begins with the first command. -/
theorem wordRun_encode_cons {i : Instr} {s t : State} {res : Byte} (is : List Instr)
    (h : exec i s = .next (t.respond res)) : wordRun ((i :: is).map encode) s =
      (okRsp res :: (wordRun (is.map encode) (t.respond res)).1, (wordRun (is.map encode) (t.respond res)).2) :=
  wordRun_cons (is.map encode) ((runWord_of_cmd (decode_encode i) s).trans h) rfl

/-- The result that a response carries, none when it reports an error (R44). -/
def resultOf (r : RspWord) : Option Byte := if errOf r = 0#4 then some (resOf r) else none

@[simp] theorem resultOf_okRsp (res : Byte) : resultOf (okRsp res) = some res := by
  simp [resultOf]

/-- What a sequence of commands answers is what the responses to their words carry (R95). -/
theorem answers_eq_map_wordRun (is : List Instr) (s : State) :
    answers is s = (wordRun (is.map encode) s).1.map resultOf := by
  induction is generalizing s with
  | nil => rfl
  | cons i is ih =>
    obtain ⟨t, r, ht, -, hr⟩ := runWord_answers (encode i) s
    have hexec : exec i s = .next t := (runWord_of_cmd (decode_encode i) s).symm.trans ht
    have hanswer : answer i s = resultOf r := by simp [answer, hexec, hr, resultOf]
    rw [List.map_cons, wordRun_cons _ ht hr, List.map_cons, ← ih, ← hanswer]
    simp [answers, hexec]

/-- The host of a command sequence is the host of its words (R117). -/
theorem hostScript_eq_wordScript (is : List Instr) : hostScript is = wordScript (is.map encode) := by
  rw [hostScript, wordScript, List.flatMap_map]

/-! ### A run of chain steps -/

/-- The commands complete in order from `s` with these results, and leave what as many chain steps leave that feed back
these ciphertext bytes: FB the last of them, CNT advanced by their number, every other register as before (R86). -/
def ChainRun (is : List Instr) (s : State) (results ciphertext : List Byte) : Prop :=
  ∃ p : Port, wordRun (is.map encode) s = (results.map okRsp,
    { s with fb := ciphertext.getLastD s.fb, cnt := s.cnt + BitVec.ofNat 32 ciphertext.length, port := p })

theorem ChainRun.nil (s : State) : ChainRun [] s [] [] := ⟨s.port, by simp [wordRun]⟩

theorem ChainRun.cons {i : Instr} {is : List Instr} {s : State} {c res : Byte} {results ciphertext : List Byte}
    (h : exec i s = .next ((s.advanceChain c).respond res))
    (hrun : ChainRun is ((s.advanceChain c).respond res) results ciphertext) :
    ChainRun (i :: is) s (res :: results) (c :: ciphertext) := by
  obtain ⟨p, hp⟩ := hrun
  refine ⟨p, ?_⟩
  have hcnt : s.cnt + 1#32 + BitVec.ofNat 32 ciphertext.length = s.cnt + BitVec.ofNat 32 (ciphertext.length + 1) := by
    rw [Nat.add_comm, BitVec.ofNat_add, BitVec.add_assoc]
  rw [wordRun_encode_cons is h, hp, List.getLastD_cons, List.length_cons, ← hcnt]
  rfl

/-- The ENC commands of a plaintext answer its ciphertext, and feed it back (R78, R82). -/
theorem chainRun_enc (plaintext : List Byte) {s : State} (hk : s.keyv = true) :
    ChainRun (plaintext.map .enc) s (encryptFrom s.key s.fb plaintext) (encryptFrom s.key s.fb plaintext) := by
  induction plaintext generalizing s with
  | nil => exact .nil s
  | cons p plaintext ih => exact .cons (exec_enc_of_key p hk) (ih hk)

/-- The DEC commands of a ciphertext answer its plaintext, and feed the ciphertext back (R79, R83). -/
theorem chainRun_dec (ciphertext : List Byte) {s : State} (hk : s.keyv = true) :
    ChainRun (ciphertext.map .dec) s (decryptFrom s.key s.fb ciphertext) ciphertext := by
  induction ciphertext generalizing s with
  | nil => exact .nil s
  | cons c ciphertext ih => exact .cons (exec_dec_of_key c hk) (ih hk)

/-! ### A session: a key written, then a run of chain steps -/

/-- KEYLD of a key, and KEYGEN of a seed whose key it is, write that key and answer it (R68, R69). -/
theorem exec_of_writes_key {key : Byte} {first : Instr} (s : State)
    (hfirst : first = .keyld key ∨ ∃ seed : Seed, first = .keygen (seed.setWidth 8) ∧ key = computeKey seed) :
    exec first s = .next ((s.installKey key).respond key) := by
  rcases hfirst with rfl | ⟨seed, rfl, rfl⟩
  · exact exec_keyld s key
  · exact exec_keygen_of_seed s (seedOperand_eq_some_iff.2 rfl)

section Sessions

variable {key : Byte} {first : Instr} {is : List Instr} {s : State} {results ciphertext : List Byte}
  (hfirst : exec first s = .next ((s.installKey key).respond key))
  (hrun : ChainRun is ((s.installKey key).respond key) results ciphertext)
include hfirst hrun

/-- A session answers its key and its chain steps' results, and leaves FB and CNT as R86 says. -/
theorem wordRun_session : ∃ p : Port, wordRun ((first :: is).map encode) s = ((key :: results).map okRsp,
    { s with key := key, keyv := true, fb := ciphertext.getLastD 0xCB#8, cnt := BitVec.ofNat 32 ciphertext.length,
             port := p }) := by
  obtain ⟨p, hp⟩ := hrun
  refine ⟨p, ?_⟩
  rw [wordRun_encode_cons is hfirst, hp, State.respond_cnt, State.installKey_cnt, BitVec.zero_add]
  rfl

/-- The commands of a session answer the key and the results, none with an error (R87, R88). -/
theorem answers_session : answers (first :: is) s = (key :: results).map some := by
  obtain ⟨p, hp⟩ := wordRun_session hfirst hrun
  rw [answers_eq_map_wordRun, hp, List.map_map]
  exact List.map_congr_left fun res _ => resultOf_okRsp res

/-- A host that issues the commands of a session takes the key and the results (R27, R117). -/
theorem run_session {rest : List HostEvent} (hport : s.port = .idle) (hinbox : s.inbox = hostScript (first :: is) ++ rest) :
    Host.Core.run core (3 * (is.length + 1)) s = .next
      { s with key := key, keyv := true, fb := ciphertext.getLastD 0xCB#8, cnt := BitVec.ofNat 32 ciphertext.length,
               inbox := rest, outbox := s.outbox ++ (key :: results).map okRsp } := by
  obtain ⟨p, hp⟩ := wordRun_session hfirst hrun
  have hscript := run_wordScript _ s rest hport (hostScript_eq_wordScript (first :: is) ▸ hinbox)
  rw [List.length_map, List.length_cons, hp] at hscript
  rw [hscript, delivered, ← hport]

end Sessions

/-! ### The obligations -/

/-- Settles O29: the ENC commands run in the session that the first command starts. -/
theorem encryptResults : Obligations.EncryptResults := fun _ plaintext s _ hfirst =>
  ⟨rfl, answers_session (exec_of_writes_key s hfirst) (chainRun_enc plaintext rfl)⟩

/-- Settles O30: as O29, with the DEC commands. -/
theorem decryptResults : Obligations.DecryptResults := fun key ciphertext s => by
  rw [decryptMessage_eq_decryptFrom]
  exact ⟨rfl, answers_session (exec_keyld s key) (chainRun_dec ciphertext rfl)⟩

/-- Settles O31: the host takes what the session's commands answer, three steps for each. -/
theorem encryptSession : Obligations.EncryptSession := by
  intro key plaintext s rest first hport hfirst hinbox
  have hsession := run_session (exec_of_writes_key s hfirst) (chainRun_enc plaintext rfl) hport hinbox
  rw [List.length_map, length_encryptFrom] at hsession
  exact hsession

/-- Settles O32: as O31, with the DEC commands. -/
theorem decryptSession : Obligations.DecryptSession := by
  intro key ciphertext s rest hport hinbox
  have hsession := run_session (exec_keyld s key) (chainRun_dec ciphertext rfl) hport hinbox
  rw [List.length_map] at hsession
  rw [decryptMessage_eq_decryptFrom]
  exact hsession

end Sys2Proof.Proofs.PseudoOps
end

section
/-! PROOFS. The invariant at reset (R84, R105, R113): the obligation O55, the base case of O56. -/

namespace Sys2Proof.Proofs.Invariant

open Sys2Proof Sys2Proof.Machine

/-- Settles O55: the registers are the reset registers, the port is idle, and no response has been taken. -/
theorem invariantAtReset : Obligations.InvariantAtReset where
  keyless := fun _ => ⟨rfl, rfl, rfl⟩
  legal := ⟨nofun, nofun⟩

end Sys2Proof.Proofs.Invariant
end

section
/-! PROOFS. Control: the registers that RDREG's selectors name (R24), and what NOP and RDREG do (R93, R94); then the
obligations O37 and O38, and O49, that the CORE never stops (R96). -/

namespace Sys2Proof.Proofs.Control

open Sys2Proof Sys2Proof.Machine Sys2Proof.Proofs.StateRules Sys2Proof.Proofs.CommandClauses
open Sys2Proof.Proofs.UnusedFieldClauses Sys2Proof.Proofs.ChainEngine

/-! ### The selector operand -/

/-- Every number in 0..7 selects the register it numbers, by the same check as a position's (R24). -/
theorem selOperand_ofNat (n : BitPos) : selOperand (BitVec.ofNat 8 n.val) = some (Reg.ofNumber n) :=
  congrArg (Option.map Reg.ofNumber) (BitField.posOperand_ofNat n)

/-- A byte above 7 selects no register: it is not reduced modulo 8 (R94, R103). -/
theorem selOperand_of_gt {b : Byte} (h : 7 < b.toNat) : selOperand b = none :=
  congrArg (Option.map Reg.ofNumber) (index8_of_gt h)

/-! ### The responses that read FLAGS and IVC -/

/-- RDREG 6 answers 0x000 or 0x001 only (R94). -/
theorem zero_append_flagsView (keyv : Bool) : 0x0#4 ++ flagsView keyv = if keyv then 0x001#12 else 0x000#12 := by
  cases keyv <;> rfl

theorem zero_append_iv : 0x0#4 ++ Config.iv = 0x0CB#12 := rfl

/-! ### What the commands do -/

section Commands

variable (s : State)

theorem exec_nop : exec .nop s = .next { s with port := .responding 0x000#12 } := rfl

/-- RDREG answers what the numbered register reads as, and nothing but the response changes (R94). -/
theorem exec_rdreg_of_number (n : BitPos) : exec (.rdreg (BitVec.ofNat 8 n.val)) s =
    .next { s with port := .responding (0x0#4 ++ s.readReg (Reg.ofNumber n)) } :=
  congrArg _ (withOperand_of_some (selOperand_ofNat n) s _ _)

/-- RDREG raises E_REGSEL for a selector above 7, and nothing but the response changes (R103, R108). -/
theorem exec_rdreg_of_gt {b : Byte} (h : 7 < b.toNat) :
    exec (.rdreg b) s = .next { s with port := .responding 0x500#12 } :=
  congrArg _ (withOperand_of_none (selOperand_of_gt h) s _ _)

end Commands

/-! ### The obligations -/

/-- Settles O37: the one word, any other with its opcode, and the one outcome. -/
theorem nopCommand : Obligations.NopCommand :=
  ⟨fun cw => decode_eq_cmd_iff_eq_encode cw .nop,
    fun _ _ hnext hopc hne => step_of_illegal hnext (decode_eq_illegal_of_ne_encode (i := .nop) rfl rfl hopc hne),
    exec_nop⟩

/-- Settles O38: the row's match and mask, the stray bits, the eight registers by number, and the selectors above 7. -/
theorem rdregCommand : Obligations.RdregCommand := by
  refine ⟨fun cw _ => decode_eq_operandB_cmd_iff cw (r := ⟨.rdreg, 0x50000000#32, 0xFFFF00FF#32⟩) (by decide) rfl rfl rfl,
    fun _ _ hnext hopc hstray =>
      step_of_illegal hnext (decode_eq_illegal_of_stray_rsv_or_A (m := .rdreg) hopc rfl hstray),
    fun s => ?_, fun _ s hgt => exec_rdreg_of_gt s hgt⟩
  rw [← zero_append_flagsView, ← zero_append_iv]
  have read := exec_rdreg_of_number s
  exact ⟨read 0, read 1, read 2, read 3, read 4, read 5, read 6, read 7⟩

/-- Settles O49: a step completes the command in flight or makes a transfer, and an idle port with no host event waits. -/
theorem coreNeverStops : Obligations.CoreNeverStops := by
  refine ⟨fun s => ?_, fun s hidle hinbox => step_empty_waits hinbox (by simp [hidle])⟩
  obtain ⟨t, ht, -⟩ := step_cases s
  exact ⟨t, ht⟩

end Sys2Proof.Proofs.Control
end

section
/-! PROOFS. Command errors (R98 to R108): which words are Illegal, which error each command raises in which state, and that
an error leaves nothing but its response; then the obligations O5, O39 and O40. -/

namespace Sys2Proof.Proofs.CommandErrors

open Sys2Proof Sys2Proof.Machine Sys2Proof.Proofs.CommandClauses Sys2Proof.Proofs.UnusedFieldClauses

/-! ### Illegal words -/

/-- A word with the opcode of a mnemonic is no word of it when RSV or an unused operand field is nonzero (R46, R49). -/
theorem not_wordOf_iff_of_opcode {cw : CmdWord} {m : Mnemonic} (hopc : opcOf cw = m.opcode) :
    ¬ WordOf m cw ↔ rsvOf cw ≠ 0#8 ∨ (m.usesA = false ∧ opA cw ≠ 0#8) ∨ (m.usesB = false ∧ opB cw ≠ 0#8) := by
  simp only [WordOf, hopc, true_and, not_and_or, not_or, Bool.not_eq_true, ne_eq]
  exact or_congr_right or_comm

/-- What R99 says of a word's fields is what decode tests (R48). -/
theorem decode_eq_illegal_iff_fields (cw : CmdWord) : decode cw = .illegal ↔
    (∀ m : Mnemonic, opcOf cw ≠ m.opcode) ∨ rsvOf cw ≠ 0#8 ∨ ∃ m : Mnemonic, opcOf cw = m.opcode ∧
      ((m.usesA = false ∧ opA cw ≠ 0#8) ∨ (m.usesB = false ∧ opB cw ≠ 0#8)) := by
  constructor
  · intro h
    by_cases hopc : ∃ m : Mnemonic, opcOf cw = m.opcode
    · obtain ⟨m, hm⟩ := hopc
      rcases (not_wordOf_iff_of_opcode hm).1 ((decode_eq_illegal_iff cw).1 h m) with hrsv | hfield
      · exact .inr (.inl hrsv)
      · exact .inr (.inr ⟨m, hm, hfield⟩)
    · exact .inl (not_exists.1 hopc)
  · rintro (hopc | hrsv | ⟨m, hm, hfield⟩)
    · exact (decode_eq_illegal_iff cw).2 fun m ⟨hm, _⟩ => hopc m hm
    · exact decode_eq_illegal_of_rsv_ne hrsv
    · exact decode_eq_illegal_of_opcode hm ((not_wordOf_iff_of_opcode hm).2 (.inr hfield))

/-! ### Which operands pass their checks -/

theorem index8_isSome_iff (b : Byte) : (index8 b).isSome = true ↔ b.toNat ≤ 7 := by
  simp [index8, Nat.lt_succ_iff]

theorem selOperand_isSome_iff (b : Byte) : (selOperand b).isSome = true ↔ b.toNat ≤ 7 := by
  rw [selOperand, Option.isSome_map, index8_isSome_iff]

theorem seedOperand_isSome_iff (b : Byte) : (seedOperand b).isSome = true ↔ b.toNat ≤ 15 := by
  simp [seedOperand]

/-! ### How a command ends -/

/-- How a command that runs on `s` ends, by the error it raises: with no error it completes, whatever it writes and
answers; an error leaves `s` but for its response (R95, R108). -/
inductive Ends (s : State) : Option ErrCode → State → Prop where
  | completes (t : State) (res : Byte) : Ends s none (t.respond res)
  | raises (e : ErrCode) : Ends s (some e) (s.raiseError e)

/-- The response tells how the command ended: ERR is the error's code, and 0 exactly when there is none (R44, R98). -/
theorem Ends.response {s t : State} {error : Option ErrCode} (h : Ends s error t) : ∃ r : RspWord,
    t.port = .responding r ∧ errOf r = error.elim 0x0#4 ErrCode.code ∧ (errOf r = 0x0#4 ↔ error = none) := by
  cases h with
  | completes u res => exact ⟨okRsp res, rfl, by simp⟩
  | raises e =>
    obtain ⟨hne, -⟩ := code_range e
    exact ⟨errRsp e, rfl, by simp [hne]⟩

section Checks

variable (s : State)

/-- A command on a checked operand completes when the operand passes its check, and raises its error when not. -/
theorem withOperand_ends {α : Type} {operand : Option α} {inRange : Prop} [Decidable inRange] (e : ErrCode)
    (h : operand.isSome = true ↔ inRange) (after : α → State) (res : α → Byte) :
    Ends s (if inRange then none else some e) (s.withOperand operand e fun v => (after v).respond (res v)) := by
  cases operand with
  | some v =>
    rw [if_pos (h.1 rfl)]
    exact .completes (after v) (res v)
  | none =>
    rw [if_neg fun hr => Bool.false_ne_true (h.2 hr)]
    exact .raises e

/-- A chain step completes when a key is installed, and raises E_NOKEY when not (R104). -/
theorem withKey_ends (after : Byte → State) (res : Byte → Byte) :
    Ends s (if s.keyv then none else some .nokey) (s.withKey fun key => (after key).respond (res key)) := by
  unfold State.withKey
  split
  · exact .completes (after s.key) (res s.key)
  · exact .raises .nokey

/-- Every command ends as R98's table says. -/
theorem exec_ends (i : Instr) : ∃ t : State, exec i s = .next t ∧ Ends s (errorOf i s) t := by
  cases i with
  | getbit _ b | setbit _ b | clrbit _ b => exact ⟨_, rfl, withOperand_ends s .bitpos (index8_isSome_iff b) _ _⟩
  | rotl _ b | rotr _ b => exact ⟨_, rfl, withOperand_ends s .rotamt (index8_isSome_iff b) _ _⟩
  | keygen b | keycalc b => exact ⟨_, rfl, withOperand_ends s .seed (seedOperand_isSome_iff b) _ _⟩
  | rdreg b => exact ⟨_, rfl, withOperand_ends s .regsel (selOperand_isSome_iff b) _ _⟩
  | enc | dec => exact ⟨_, rfl, withKey_ends s _ _⟩
  | nop | keyld | encb | decb | crst | kclr => exact ⟨_, rfl, .completes _ _⟩

/-- R98's table has no error for a command exactly when its operand is in range and a chain step has a key. -/
theorem errorOf_eq_none_iff (i : Instr) : errorOf i s = none ↔ runsClean i s = true := by
  cases i <;> simp [errorOf, runsClean, Instr.inRange, chainStepOf]

end Checks

/-- A response with ERR ≠ 0 is that of an error, which wrote nothing else (R108). -/
theorem effect_of_err_ne_zero {s t : State} {r : RspWord} (h : Effect s t) (hport : t.port = .responding r)
    (hr : errOf r ≠ 0x0#4) : ∃ e : ErrCode, r = errRsp e ∧ t = s.raiseError e := by
  cases h with
  | raised e => exact ⟨e, (Port.responding.inj hport).symm, rfl⟩
  | answered | keyWritten | keyDiscarded | sessionStarted | chained =>
    cases hport
    exact absurd (errOf_okRsp _) hr

/-! ### The obligations -/

/-- Settles O5: the test of the fields, and the answer to a word that fails it. -/
theorem illegalWords : Obligations.IllegalWords :=
  ⟨decode_eq_illegal_iff_fields, fun _ _ hnext hdecode => step_of_illegal hnext hdecode⟩

/-- Settles O39: every command ends as the table says, and its response tells how. -/
theorem errorTable : Obligations.ErrorTable := by
  intro i s
  obtain ⟨t, ht, hends⟩ := exec_ends s i
  obtain ⟨r, hport, hcode, hzero⟩ := hends.response
  refine ⟨t, r, ht, hport, hcode.trans ?_, hzero.trans (errorOf_eq_none_iff s i)⟩
  cases errorOf i s <;> rfl

/-- Settles O40: the word raised an error, which writes the response only, and no command reads that. -/
theorem errorsLeaveNoTrace : Obligations.ErrorsLeaveNoTrace := by
  intro s t cw r hnext hstep hport hr
  obtain ⟨u, -, hu, heffect, -⟩ := runWord_answers cw s
  obtain rfl : t = u := Host.Outcome.next.inj (hstep.symm.trans ((step_of_runsNext hnext).trans hu))
  obtain ⟨e, rfl, rfl⟩ := effect_of_err_ne_zero heffect hport hr
  exact ⟨⟨e, errOf_errRsp e⟩, resOf_errRsp e, rfl, fun i => exec_port_irrelevant i s _⟩

end Sys2Proof.Proofs.CommandErrors
end

section
/-! PROOFS. The invariant along a run (R105): what every step keeps holds after any number of steps; then the obligation
O41. -/

namespace Sys2Proof.Proofs.Invariant

open Sys2Proof Sys2Proof.Machine

/-- What every step keeps, a run of any length keeps. -/
theorem run_preserves {P : State → Prop} (hkept : ∀ s t : State, P s → step s = .next t → P t) {n : Nat} {s t : State}
    (hs : P s) (hrun : Host.Core.run Sys2Proof.core n s = .next t) : P t := by
  induction n generalizing s with
  | zero => exact Host.Outcome.next.inj hrun ▸ hs
  | succ n ih =>
    obtain ⟨u, hu, -⟩ := step_cases s
    exact ih (hkept s u hs hu) ((run_succ hu).symm.trans hrun)

/-- The invariant does not speak of what the host will do. -/
theorem inv_of_inbox {s : State} (h : s.Inv) (events : List HostEvent) : State.Inv { s with inbox := events } :=
  ⟨h.keyless, h.legal⟩

/-- A response the CORE can report has no reserved code (R105). -/
theorem errOf_le_of_legalRsp {r : RspWord} (h : legalRsp r = true) : (errOf r).toNat ≤ 6 := by
  obtain ⟨hcode, -⟩ := Bool.and_eq_true_iff.1 h
  exact of_decide_eq_true hcode

/-- Settles O41: the invariant holds at reset before any host, and so after any run, and it makes every response legal. -/
theorem noReservedCodeIsReported : Obligations.NoReservedCodeIsReported := by
  intro events n t hrun
  obtain ⟨-, hheld, htaken⟩ := run_preserves invariantKept (inv_of_inbox invariantAtReset events) hrun
  exact ⟨fun r hr => errOf_le_of_legalRsp (htaken r hr), fun r hr => errOf_le_of_legalRsp (hheld r hr)⟩

end Sys2Proof.Proofs.Invariant
end

section
/-! PROOFS. Reset and the state it leaves (R113, R115): the registers of State.reset, the host's side kept, the CORE free for
the next command; then the obligations O52 and O27. -/

namespace Sys2Proof.Proofs.Reset

open Sys2Proof Sys2Proof.Machine Sys2Proof.Proofs.StateRules Sys2Proof.Proofs.ChainEngine

/-- After a reset nothing of the state before it is left but the host's side (R113). -/
theorem takeReset_eq_reset (s : State) :
    s.takeReset = { State.reset with inbox := s.inbox, outbox := s.outbox } := rfl

/-- A reset, then the host's next command: it is accepted, and what was in flight has left no trace (R113). -/
theorem run_reset_accept {s : State} {cw : CmdWord} {rest : List HostEvent}
    (hi : s.inbox = .reset :: .command cw :: rest) : Host.Core.run Sys2Proof.core 2 s =
      .next { State.reset with port := .accepted cw, inbox := rest, outbox := s.outbox } := by
  have hreset : step s = .next { s.takeReset with inbox := .command cw :: rest } := step_reset hi
  rw [takeReset_eq_reset] at hreset
  exact (run_succ hreset).trans (run_succ (step_accept rfl rfl))

/-- Settles O52: the reset is taken whatever is in flight, and leaves the CORE free for the next command. -/
theorem resetEvent : Obligations.ResetEvent :=
  ⟨fun _ _ hi => ⟨_, step_reset hi, rfl, rfl, rfl, rfl, rfl, rfl, fun _ => rfl⟩,
    fun _ _ _ hi _ => run_reset_accept hi⟩

/-- Settles O27: KCLR writes the reset values and answers; it touches neither of the host's lists. -/
theorem kclrLeavesResetState : Obligations.KclrLeavesResetState :=
  fun s => ⟨_, exec_kclr s, ⟨rfl, rfl, rfl, rfl⟩, rfl, rfl⟩

end Sys2Proof.Proofs.Reset
end
